-- ==== Sys2Proof/Word.lean ====
section
/-! DEFINITION. The word types of the RustyChip CORE (00_scope.md R6, R8, R9; 30_encoding.md R57). -/

namespace Sys2Proof

/-- A memory byte, a general register, a timer: 8 bits (R8). -/
abbrev Byte := BitVec 8

/-- An instruction word, the index register, the program counter, a return address: 16 bits (R8). -/
abbrev Word := BitVec 16

/-- One hexadecimal digit of an instruction word (R57). -/
abbrev Nibble := BitVec 4

/-- The 12-bit field NNN (R57). -/
abbrev Addr12 := BitVec 12

/-- The number of a general register, 0 to 15 (10_state.md R16). -/
abbrev Reg := Fin 16

/-- Register 15, the carry, borrow and collision flag (10_state.md R18). -/
abbrev VF : Reg := 15

/-- The 16-entry key snapshot of one step (10_state.md R33). -/
abbrev KeySnapshot := Vector Bool 16

/-- `zext_16` of 00_scope.md R10. -/
abbrev zext16 {w : Nat} (v : BitVec w) : Word := v.setWidth 16

/-- `zext_8` of 00_scope.md R10. -/
abbrev zext8 {w : Nat} (v : BitVec w) : Byte := v.setWidth 8

end Sys2Proof
end

