-- ==== Sys2Proof/Config.lean ====
section
/-! DEFINITION. What an implementation fixes: the parameter types of 00_scope.md R6 and R7, and the values
the spec leaves free, as constants without a body. The parameters that have a value in this spec get it in
Machine/Parameters.lean. -/

namespace Sys2Proof

/-- Where X or Y is register 15, whether the result of a flag-writing operation uses the operands read before
the flag write or the registers as they are after it (41_alu.md R81, D5). -/
inductive VfAlias where
  | snapshot
  | sequential
deriving DecidableEq, Repr, Inhabited

/-- The mask of Cxnn: the low nibble or the low byte of the word (41_alu.md R93, D11). -/
inductive RandMask where
  | n
  | nn
deriving DecidableEq, Repr

/-- `VF_ALIAS` is OPEN in the spec (R7, D5): no value of it can be proved.
Log entry 1, safe. -/
opaque Config.vfAlias : VfAlias

/-- The key snapshot of the k-th step whose inputs the host list does not give: any 16 booleans, unrelated to
the other snapshots (R33, D18). Log entry 6, safe. -/
opaque Config.freeKeys : Nat → KeySnapshot

/-- The random byte of the k-th step whose inputs the host list does not give: any byte, with no law
(R34, D10). Log entry 6, safe. -/
opaque Config.freeRand8 : Nat → Byte

/-- The size of memory in bytes (R6, 20_memory.md R39). -/
abbrev Config.memSize : Nat := 4096

/-- The address of the program image and the reset value of pc (R6, 10_state.md R20). -/
abbrev Config.imageBase : Nat := 512

/-- The size of the font table in bytes (R6). -/
abbrev Config.fontSize : Nat := 80

end Sys2Proof
end

