-- ==== Sys2Proof/Syntax.lean ====
section
/-! DEFINITION. The 34 instructions (30_encoding.md R67). One constructor per row of the opcode map.
A nibble that the spec ignores (R64) is kept as the last argument of its constructor, so that an instruction
stands for exactly one word; it never changes an effect (log entry 10). -/

namespace Sys2Proof

/-- An instruction with its operands. `x`, `y`: registers; `nn`, `nnn`, `n`: immediates; `ign`: an ignored
nibble (R64). -/
inductive Instr where
  | cls (ign : Nibble)                       -- 0?E0  CLS           R101
  | ret (ign : Nibble)                       -- 0?EE  RET           R71
  | jp (nnn : Addr12)                        -- 1nnn  JP nnn        R72
  | call (nnn : Addr12)                      -- 2nnn  CALL nnn      R73
  | seImm (x : Reg) (nn : Byte)              -- 3xnn  SE Vx, nn     R75
  | sneImm (x : Reg) (nn : Byte)             -- 4xnn  SNE Vx, nn    R76
  | seReg (x y : Reg) (ign : Nibble)         -- 5xy?  SE Vx, Vy     R77
  | ldImm (x : Reg) (nn : Byte)              -- 6xnn  LD Vx, nn     R82
  | addImm (x : Reg) (nn : Byte)             -- 7xnn  ADD Vx, nn    R83
  | ldReg (x y : Reg)                        -- 8xy0  LD Vx, Vy     R84
  | orReg (x y : Reg)                        -- 8xy1  OR Vx, Vy     R85
  | andReg (x y : Reg)                       -- 8xy2  AND Vx, Vy    R86
  | xorReg (x y : Reg)                       -- 8xy3  XOR Vx, Vy    R87
  | addReg (x y : Reg)                       -- 8xy4  ADD Vx, Vy    R88
  | subReg (x y : Reg)                       -- 8xy5  SUB Vx, Vy    R89
  | shr (x : Reg) (ign : Nibble)             -- 8x?6  SHR Vx        R90
  | subnReg (x y : Reg)                      -- 8xy7  SUBN Vx, Vy   R91
  | shl (x : Reg) (ign : Nibble)             -- 8x?E  SHL Vx        R92
  | sneReg (x y : Reg) (ign : Nibble)        -- 9xy?  SNE Vx, Vy    R78
  | ldI (nnn : Addr12)                       -- Annn  LD I, nnn     R95
  | jpV0 (nnn : Addr12)                      -- Bnnn  JP V0, nnn    R74
  | rnd (x : Reg) (nn : Byte)                -- Cxnn  RND Vx, nn    R93
  | drw (x y : Reg) (n : Nibble)             -- Dxyn  DRW Vx, Vy, n R102
  | skp (x : Reg)                            -- Ex9E  SKP Vx        R110
  | sknp (x : Reg)                           -- ExA1  SKNP Vx       R111
  | ldRegDt (x : Reg)                        -- Fx07  LD Vx, DT     R112
  | ldKey (x : Reg)                          -- Fx0A  LD Vx, K      R113
  | ldDtReg (x : Reg)                        -- Fx15  LD DT, Vx     R114
  | ldStReg (x : Reg)                        -- Fx18  LD ST, Vx     R115
  | addI (x : Reg)                           -- Fx1E  ADD I, Vx     R96
  | ldFont (x : Reg)                         -- Fx29  LD F, Vx      R97
  | ldBcd (x : Reg)                          -- Fx33  LD B, Vx      R98
  | stRegs (x : Reg)                         -- Fx55  LD [I], Vx    R99
  | ldRegs (x : Reg)                         -- Fx65  LD Vx, [I]    R100
deriving DecidableEq, Repr

/-- The rows of the opcode map by name (R67, R68). -/
inductive Mnemonic where
  | cls | ret | jp | call | seImm | sneImm | seReg | ldImm | addImm | ldReg | orReg | andReg | xorReg
  | addReg | subReg | shr | subnReg | shl | sneReg | ldI | jpV0 | rnd | drw | skp | sknp | ldRegDt
  | ldKey | ldDtReg | ldStReg | addI | ldFont | ldBcd | stRegs | ldRegs
deriving DecidableEq, Repr

/-- The row of the opcode map an instruction belongs to. -/
def Instr.mnemonic : Instr → Mnemonic
  | .cls _ => .cls
  | .ret _ => .ret
  | .jp _ => .jp
  | .call _ => .call
  | .seImm _ _ => .seImm
  | .sneImm _ _ => .sneImm
  | .seReg _ _ _ => .seReg
  | .ldImm _ _ => .ldImm
  | .addImm _ _ => .addImm
  | .ldReg _ _ => .ldReg
  | .orReg _ _ => .orReg
  | .andReg _ _ => .andReg
  | .xorReg _ _ => .xorReg
  | .addReg _ _ => .addReg
  | .subReg _ _ => .subReg
  | .shr _ _ => .shr
  | .subnReg _ _ => .subnReg
  | .shl _ _ => .shl
  | .sneReg _ _ _ => .sneReg
  | .ldI _ => .ldI
  | .jpV0 _ => .jpV0
  | .rnd _ _ => .rnd
  | .drw _ _ _ => .drw
  | .skp _ => .skp
  | .sknp _ => .sknp
  | .ldRegDt _ => .ldRegDt
  | .ldKey _ => .ldKey
  | .ldDtReg _ => .ldDtReg
  | .ldStReg _ => .ldStReg
  | .addI _ => .addI
  | .ldFont _ => .ldFont
  | .ldBcd _ => .ldBcd
  | .stRegs _ => .stRegs
  | .ldRegs _ => .ldRegs

/-- An operand as it is written in assembler, before any check that it fits its field (R68). -/
inductive Operand where
  | reg (number : Nat)
  | byte (value : Nat)
  | addr (value : Nat)
  | nibble (value : Nat)
deriving DecidableEq, Repr

/-- The operands of an instruction as they are written; an ignored nibble is none (R64, R68). -/
def Instr.operands : Instr → List Operand
  | .cls _ => []
  | .ret _ => []
  | .jp nnn => [.addr nnn.toNat]
  | .call nnn => [.addr nnn.toNat]
  | .seImm x nn => [.reg x, .byte nn.toNat]
  | .sneImm x nn => [.reg x, .byte nn.toNat]
  | .seReg x y _ => [.reg x, .reg y]
  | .ldImm x nn => [.reg x, .byte nn.toNat]
  | .addImm x nn => [.reg x, .byte nn.toNat]
  | .ldReg x y => [.reg x, .reg y]
  | .orReg x y => [.reg x, .reg y]
  | .andReg x y => [.reg x, .reg y]
  | .xorReg x y => [.reg x, .reg y]
  | .addReg x y => [.reg x, .reg y]
  | .subReg x y => [.reg x, .reg y]
  | .shr x _ => [.reg x]
  | .subnReg x y => [.reg x, .reg y]
  | .shl x _ => [.reg x]
  | .sneReg x y _ => [.reg x, .reg y]
  | .ldI nnn => [.addr nnn.toNat]
  | .jpV0 nnn => [.addr nnn.toNat]
  | .rnd x nn => [.reg x, .byte nn.toNat]
  | .drw x y n => [.reg x, .reg y, .nibble n.toNat]
  | .skp x => [.reg x]
  | .sknp x => [.reg x]
  | .ldRegDt x => [.reg x]
  | .ldKey x => [.reg x]
  | .ldDtReg x => [.reg x]
  | .ldStReg x => [.reg x]
  | .addI x => [.reg x]
  | .ldFont x => [.reg x]
  | .ldBcd x => [.reg x]
  | .stRegs x => [.reg x]
  | .ldRegs x => [.reg x]

end Sys2Proof
end

