-- ==== Sys2Proof/WellFormed.lean ====
section
/-! DEFINITION. What a well-formed operand, instruction and program image are (30_encoding.md R68,
70_reset_and_hazards.md R135). -/

namespace Sys2Proof

/-- The operand fits its field: a register V0 to VF, `nn` at most 255, `nnn` at most 4095, `n` at most 15
(R68). -/
def Operand.wellFormed : Operand → Bool
  | .reg number => number < 16
  | .byte value => value < 256
  | .addr value => value < 4096
  | .nibble value => value < 16

/-- Every operand of the instruction fits its field. -/
def Instr.wellFormed (i : Instr) : Bool := i.operands.all Operand.wellFormed

/-- The image fits between its base and the end of memory (R135). -/
def imageFits (image : List Byte) : Bool := Config.imageBase + image.length ≤ Config.memSize

end Sys2Proof
end

