-- ==== Sys2Proof/Decode.lean ====
section
/-! DEFINITION. Decoding a word into an instruction, the encoder, the opcode map as masks and patterns, and
the assembler on operands (30_encoding.md R56 to R69). -/

namespace Sys2Proof

/-! ### Fields (R57) -/

/-- `op`, w[15:12]: the instruction family. -/
def fieldOp (w : Word) : Nibble := w.extractLsb' 12 4
/-- `X`, w[11:8]. -/
def fieldX (w : Word) : Nibble := w.extractLsb' 8 4
/-- `Y`, w[7:4]. -/
def fieldY (w : Word) : Nibble := w.extractLsb' 4 4
/-- `N`, w[3:0]. -/
def fieldN (w : Word) : Nibble := w.extractLsb' 0 4
/-- `NN`, w[7:0]. -/
def fieldNN (w : Word) : Byte := w.extractLsb' 0 8
/-- `NNN`, w[11:0]. -/
def fieldNNN (w : Word) : Addr12 := w.extractLsb' 0 12
/-- The register named by `X`. -/
def regX (w : Word) : Reg := (fieldX w).toFin
/-- The register named by `Y`. -/
def regY (w : Word) : Reg := (fieldY w).toFin

/-! ### Decode and dispatch -/

/-- Why bytes are no instruction. The four `illegal` reasons are the four groups of R65. -/
inductive DecodeError where
  | truncated
  | illegalFamily0
  | illegalFamily8
  | illegalFamilyE
  | illegalFamilyF
deriving DecidableEq, Repr

/-- Family 0: `NN` is the discriminator, `X` is ignored (R63, R64). -/
def decodeFamily0 (w : Word) : Except DecodeError Instr :=
  match fieldNN w with
  | 0xE0#8 => .ok (.cls (fieldX w))
  | 0xEE#8 => .ok (.ret (fieldX w))
  | _ => .error .illegalFamily0

/-- Family 8: `N` is the discriminator; 8xy6 and 8xyE ignore `Y` (R63, R64). -/
def decodeFamily8 (w : Word) : Except DecodeError Instr :=
  match fieldN w with
  | 0x0#4 => .ok (.ldReg (regX w) (regY w))
  | 0x1#4 => .ok (.orReg (regX w) (regY w))
  | 0x2#4 => .ok (.andReg (regX w) (regY w))
  | 0x3#4 => .ok (.xorReg (regX w) (regY w))
  | 0x4#4 => .ok (.addReg (regX w) (regY w))
  | 0x5#4 => .ok (.subReg (regX w) (regY w))
  | 0x6#4 => .ok (.shr (regX w) (fieldY w))
  | 0x7#4 => .ok (.subnReg (regX w) (regY w))
  | 0xE#4 => .ok (.shl (regX w) (fieldY w))
  | _ => .error .illegalFamily8

/-- Family E: `NN` is the discriminator (R63). -/
def decodeFamilyE (w : Word) : Except DecodeError Instr :=
  match fieldNN w with
  | 0x9E#8 => .ok (.skp (regX w))
  | 0xA1#8 => .ok (.sknp (regX w))
  | _ => .error .illegalFamilyE

/-- Family F: `NN` is the discriminator (R63). -/
def decodeFamilyF (w : Word) : Except DecodeError Instr :=
  match fieldNN w with
  | 0x07#8 => .ok (.ldRegDt (regX w))
  | 0x0A#8 => .ok (.ldKey (regX w))
  | 0x15#8 => .ok (.ldDtReg (regX w))
  | 0x18#8 => .ok (.ldStReg (regX w))
  | 0x1E#8 => .ok (.addI (regX w))
  | 0x29#8 => .ok (.ldFont (regX w))
  | 0x33#8 => .ok (.ldBcd (regX w))
  | 0x55#8 => .ok (.stRegs (regX w))
  | 0x65#8 => .ok (.ldRegs (regX w))
  | _ => .error .illegalFamilyF

/-- The dispatch of R63: a function of `op` and, in families 0, 8, E and F, of a second discriminator. -/
def decodeWord (w : Word) : Except DecodeError Instr :=
  match fieldOp w with
  | 0x0#4 => decodeFamily0 w
  | 0x1#4 => .ok (.jp (fieldNNN w))
  | 0x2#4 => .ok (.call (fieldNNN w))
  | 0x3#4 => .ok (.seImm (regX w) (fieldNN w))
  | 0x4#4 => .ok (.sneImm (regX w) (fieldNN w))
  | 0x5#4 => .ok (.seReg (regX w) (regY w) (fieldN w))
  | 0x6#4 => .ok (.ldImm (regX w) (fieldNN w))
  | 0x7#4 => .ok (.addImm (regX w) (fieldNN w))
  | 0x8#4 => decodeFamily8 w
  | 0x9#4 => .ok (.sneReg (regX w) (regY w) (fieldN w))
  | 0xA#4 => .ok (.ldI (fieldNNN w))
  | 0xB#4 => .ok (.jpV0 (fieldNNN w))
  | 0xC#4 => .ok (.rnd (regX w) (fieldNN w))
  | 0xD#4 => .ok (.drw (regX w) (regY w) (fieldN w))
  | 0xE#4 => decodeFamilyE w
  | _ => decodeFamilyF w          -- 0xF, the only family left

/-- The big-endian word of two bytes, the first at the lower address (20_memory.md R47). -/
def wordOfBytes (high low : Byte) : Word := BitVec.ofNat 16 (high.toNat * 256 + low.toNat)

/-- The byte of a word that stands at the lower address (R47). -/
def highByte (w : Word) : Byte := w.extractLsb' 8 8

/-- The byte of a word that stands at the higher address (R47). -/
def lowByte (w : Word) : Byte := w.extractLsb' 0 8

/-- Decode the instruction at the head of some bytes and give back the rest. -/
def decode : List Byte → Except DecodeError (Instr × List Byte)
  | high :: low :: rest =>
    match decodeWord (wordOfBytes high low) with
    | .ok i => .ok (i, rest)
    | .error e => .error e
  | _ => .error .truncated

/-! ### The encoder (R57, R58, R67) -/

/-- Format `A`: `op` and `NNN`. -/
def packA (op : Nibble) (nnn : Addr12) : Word := BitVec.ofNat 16 (op.toNat * 4096 + nnn.toNat)

/-- Formats `XNN`, `XF` and `O`: `op`, one nibble and a byte. -/
def packXNN (op x : Nibble) (nn : Byte) : Word :=
  BitVec.ofNat 16 (op.toNat * 4096 + x.toNat * 256 + nn.toNat)

/-- Formats `XYN`, `XY` and `X-`: four nibbles. -/
def packXYN (op x y n : Nibble) : Word :=
  BitVec.ofNat 16 (op.toNat * 4096 + x.toNat * 256 + y.toNat * 16 + n.toNat)

/-- The nibble that names a register. -/
def regNibble (r : Reg) : Nibble := BitVec.ofFin r

/-- The word of an instruction, from the pattern column of R67. -/
def encode : Instr → Word
  | .cls ign => packXNN 0x0 ign 0xE0
  | .ret ign => packXNN 0x0 ign 0xEE
  | .jp nnn => packA 0x1 nnn
  | .call nnn => packA 0x2 nnn
  | .seImm x nn => packXNN 0x3 (regNibble x) nn
  | .sneImm x nn => packXNN 0x4 (regNibble x) nn
  | .seReg x y ign => packXYN 0x5 (regNibble x) (regNibble y) ign
  | .ldImm x nn => packXNN 0x6 (regNibble x) nn
  | .addImm x nn => packXNN 0x7 (regNibble x) nn
  | .ldReg x y => packXYN 0x8 (regNibble x) (regNibble y) 0x0
  | .orReg x y => packXYN 0x8 (regNibble x) (regNibble y) 0x1
  | .andReg x y => packXYN 0x8 (regNibble x) (regNibble y) 0x2
  | .xorReg x y => packXYN 0x8 (regNibble x) (regNibble y) 0x3
  | .addReg x y => packXYN 0x8 (regNibble x) (regNibble y) 0x4
  | .subReg x y => packXYN 0x8 (regNibble x) (regNibble y) 0x5
  | .shr x ign => packXYN 0x8 (regNibble x) ign 0x6
  | .subnReg x y => packXYN 0x8 (regNibble x) (regNibble y) 0x7
  | .shl x ign => packXYN 0x8 (regNibble x) ign 0xE
  | .sneReg x y ign => packXYN 0x9 (regNibble x) (regNibble y) ign
  | .ldI nnn => packA 0xA nnn
  | .jpV0 nnn => packA 0xB nnn
  | .rnd x nn => packXNN 0xC (regNibble x) nn
  | .drw x y n => packXYN 0xD (regNibble x) (regNibble y) n
  | .skp x => packXNN 0xE (regNibble x) 0x9E
  | .sknp x => packXNN 0xE (regNibble x) 0xA1
  | .ldRegDt x => packXNN 0xF (regNibble x) 0x07
  | .ldKey x => packXNN 0xF (regNibble x) 0x0A
  | .ldDtReg x => packXNN 0xF (regNibble x) 0x15
  | .ldStReg x => packXNN 0xF (regNibble x) 0x18
  | .addI x => packXNN 0xF (regNibble x) 0x1E
  | .ldFont x => packXNN 0xF (regNibble x) 0x29
  | .ldBcd x => packXNN 0xF (regNibble x) 0x33
  | .stRegs x => packXNN 0xF (regNibble x) 0x55
  | .ldRegs x => packXNN 0xF (regNibble x) 0x65

/-- The two bytes of an instruction in address order (R47). -/
def encodeBytes (i : Instr) : List Byte := [highByte (encode i), lowByte (encode i)]

/-! ### The opcode map as masks and patterns (R67) -/

/-- One row of the opcode map: a word `w` is the row's instruction iff `w AND mask = pattern`. -/
structure OpcodeRow where
  mnemonic : Mnemonic
  mask : Word
  pattern : Word
deriving DecidableEq, Repr

/-- The word belongs to the row. -/
def OpcodeRow.holds (row : OpcodeRow) (w : Word) : Bool := w &&& row.mask == row.pattern

/-- Rows of families 0 to 7. -/
def opcodeRowsLow : List OpcodeRow :=
  [⟨.cls, 0xF0FF, 0x00E0⟩, ⟨.ret, 0xF0FF, 0x00EE⟩, ⟨.jp, 0xF000, 0x1000⟩, ⟨.call, 0xF000, 0x2000⟩,
   ⟨.seImm, 0xF000, 0x3000⟩, ⟨.sneImm, 0xF000, 0x4000⟩, ⟨.seReg, 0xF000, 0x5000⟩,
   ⟨.ldImm, 0xF000, 0x6000⟩, ⟨.addImm, 0xF000, 0x7000⟩]

/-- Rows of family 8. -/
def opcodeRowsAlu : List OpcodeRow :=
  [⟨.ldReg, 0xF00F, 0x8000⟩, ⟨.orReg, 0xF00F, 0x8001⟩, ⟨.andReg, 0xF00F, 0x8002⟩,
   ⟨.xorReg, 0xF00F, 0x8003⟩, ⟨.addReg, 0xF00F, 0x8004⟩, ⟨.subReg, 0xF00F, 0x8005⟩,
   ⟨.shr, 0xF00F, 0x8006⟩, ⟨.subnReg, 0xF00F, 0x8007⟩, ⟨.shl, 0xF00F, 0x800E⟩]

/-- Rows of families 9 to F. -/
def opcodeRowsHigh : List OpcodeRow :=
  [⟨.sneReg, 0xF000, 0x9000⟩, ⟨.ldI, 0xF000, 0xA000⟩, ⟨.jpV0, 0xF000, 0xB000⟩, ⟨.rnd, 0xF000, 0xC000⟩,
   ⟨.drw, 0xF000, 0xD000⟩, ⟨.skp, 0xF0FF, 0xE09E⟩, ⟨.sknp, 0xF0FF, 0xE0A1⟩, ⟨.ldRegDt, 0xF0FF, 0xF007⟩,
   ⟨.ldKey, 0xF0FF, 0xF00A⟩, ⟨.ldDtReg, 0xF0FF, 0xF015⟩, ⟨.ldStReg, 0xF0FF, 0xF018⟩,
   ⟨.addI, 0xF0FF, 0xF01E⟩, ⟨.ldFont, 0xF0FF, 0xF029⟩, ⟨.ldBcd, 0xF0FF, 0xF033⟩,
   ⟨.stRegs, 0xF0FF, 0xF055⟩, ⟨.ldRegs, 0xF0FF, 0xF065⟩]

/-- The 34 rows of R67. -/
def opcodeRows : List OpcodeRow := opcodeRowsLow ++ opcodeRowsAlu ++ opcodeRowsHigh

/-! ### The assembler on operands (R68, R69) -/

/-- Why the assembler refuses a line (R68). -/
inductive AsmError where
  | operandDoesNotFit
  | wrongOperands
deriving DecidableEq, Repr

/-- No operand. -/
def asmNone (i : Instr) : List Operand → Except AsmError Instr
  | [] => .ok i
  | _ => .error .wrongOperands

/-- One address `nnn`. -/
def asmAddr (f : Addr12 → Instr) : List Operand → Except AsmError Instr
  | [.addr nnn] => .ok (f (BitVec.ofNat 12 nnn))
  | _ => .error .wrongOperands

/-- One register. -/
def asmReg (f : Reg → Instr) : List Operand → Except AsmError Instr
  | [.reg x] => .ok (f (Fin.ofNat 16 x))
  | _ => .error .wrongOperands

/-- A register and a byte. -/
def asmRegByte (f : Reg → Byte → Instr) : List Operand → Except AsmError Instr
  | [.reg x, .byte nn] => .ok (f (Fin.ofNat 16 x) (BitVec.ofNat 8 nn))
  | _ => .error .wrongOperands

/-- Two registers. -/
def asmRegReg (f : Reg → Reg → Instr) : List Operand → Except AsmError Instr
  | [.reg x, .reg y] => .ok (f (Fin.ofNat 16 x) (Fin.ofNat 16 y))
  | _ => .error .wrongOperands

/-- Two registers and a nibble. -/
def asmRegRegNibble (f : Reg → Reg → Nibble → Instr) : List Operand → Except AsmError Instr
  | [.reg x, .reg y, .nibble n] => .ok (f (Fin.ofNat 16 x) (Fin.ofNat 16 y) (BitVec.ofNat 4 n))
  | _ => .error .wrongOperands

/-- The instruction of a mnemonic with operands that fit; an ignored nibble assembles as 0 (R68). -/
def asmFitting (m : Mnemonic) (ops : List Operand) : Except AsmError Instr :=
  match m with
  | .cls => asmNone (.cls 0) ops
  | .ret => asmNone (.ret 0) ops
  | .jp => asmAddr .jp ops
  | .call => asmAddr .call ops
  | .seImm => asmRegByte .seImm ops
  | .sneImm => asmRegByte .sneImm ops
  | .seReg => asmRegReg (.seReg · · 0) ops
  | .ldImm => asmRegByte .ldImm ops
  | .addImm => asmRegByte .addImm ops
  | .ldReg => asmRegReg .ldReg ops
  | .orReg => asmRegReg .orReg ops
  | .andReg => asmRegReg .andReg ops
  | .xorReg => asmRegReg .xorReg ops
  | .addReg => asmRegReg .addReg ops
  | .subReg => asmRegReg .subReg ops
  | .shr => asmReg (.shr · 0) ops
  | .subnReg => asmRegReg .subnReg ops
  | .shl => asmReg (.shl · 0) ops
  | .sneReg => asmRegReg (.sneReg · · 0) ops
  | .ldI => asmAddr .ldI ops
  | .jpV0 => asmAddr .jpV0 ops
  | .rnd => asmRegByte .rnd ops
  | .drw => asmRegRegNibble .drw ops
  | .skp => asmReg .skp ops
  | .sknp => asmReg .sknp ops
  | .ldRegDt => asmReg .ldRegDt ops
  | .ldKey => asmReg .ldKey ops
  | .ldDtReg => asmReg .ldDtReg ops
  | .ldStReg => asmReg .ldStReg ops
  | .addI => asmReg .addI ops
  | .ldFont => asmReg .ldFont ops
  | .ldBcd => asmReg .ldBcd ops
  | .stRegs => asmReg .stRegs ops
  | .ldRegs => asmReg .ldRegs ops

/-- An operand that does not fit its field is refused by the assembler (R68). -/
def assemble (m : Mnemonic) (ops : List Operand) : Except AsmError Instr :=
  if ops.all Operand.wellFormed then asmFitting m ops else .error .operandDoesNotFit

/-- One line of an assembler text: an instruction, or the directive `DB` (R69). -/
inductive AsmLine where
  | instr (m : Mnemonic) (ops : List Operand)
  | db (bytes : List Nat)
deriving DecidableEq, Repr

/-- The bytes of one line, at consecutive addresses (R69). -/
def assembleLine : AsmLine → Except AsmError (List Byte)
  | .instr m ops =>
    match assemble m ops with
    | .ok i => .ok (encodeBytes i)
    | .error e => .error e
  | .db bytes =>
    if bytes.all (· < 256) then .ok (bytes.map (BitVec.ofNat 8)) else .error .operandDoesNotFit

/-- The image of a text: its lines in order. -/
def assembleLines : List AsmLine → Except AsmError (List Byte)
  | [] => .ok []
  | line :: lines =>
    match assembleLine line, assembleLines lines with
    | .ok bytes, .ok rest => .ok (bytes ++ rest)
    | .error e, _ => .error e
    | _, .error e => .error e

/-! ### The opcode table's numbering of bits -/

/-- The two bytes, as they stand in memory, of the instruction whose bits the opcode table numbers as `w`:
every bit of the word above `nbits` is 0. -/
def tableWord (nbits w : Nat) : Word := BitVec.ofNat 16 (w % 2 ^ nbits)

/-- The instruction that the decoder reads from the opcode table's word `w` of `nbits` bits. -/
def decodeTableWord (nbits w : Nat) : Option Instr :=
  match decode [highByte (tableWord nbits w), lowByte (tableWord nbits w)] with
  | .ok (i, _) => some i
  | .error _ => none

end Sys2Proof
end

