-- ==== Sys2Proof/Machine/Memory.lean ====
section
/-! DEFINITION. The 4096-byte memory as a list of cells in one canonical form (20_memory.md R39, R44, R51). -/

namespace Sys2Proof.Machine

/-- The cells whose byte differs from their reset byte, by rising address. -/
abbrev Memory := List Host.Cell

/-- The byte at an address right after reset with an empty image: the font at 0 to 79, and 0 elsewhere
(R44, R45). This is what an address that is not listed reads as (log entry 12). -/
def resetByte (a : Nat) : Byte := font.getD a 0

/-- The byte at an address (R51). -/
def readCell : Memory → Nat → Byte
  | [], a => resetByte a
  | (b, v) :: rest, a => if a = b then v else readCell rest a

/-- The list without the cell of an address. -/
def removeCell : Memory → Nat → Memory
  | [], _ => []
  | (b, u) :: rest, a => if a = b then removeCell rest a else (b, u) :: removeCell rest a

/-- Put a cell at its place in the rising list. -/
def insertCell : Memory → Nat → Byte → Memory
  | [], a, v => [(a, v)]
  | (b, u) :: rest, a, v => if a < b then (a, v) :: (b, u) :: rest else (b, u) :: insertCell rest a v

/-- A write changes exactly the addressed byte (R51); a byte equal to the reset byte is not listed. No byte
exists at an address of 4096 or more (R39), so nothing is written there; the meanings check their range and
raise MemOutOfRange before (R42). -/
def writeCell (m : Memory) (a : Nat) (v : Byte) : Memory :=
  if a < Config.memSize then
    if v = resetByte a then removeCell m a else insertCell (removeCell m a) a v
  else m

/-- Write bytes to consecutive addresses in ascending order (R50). -/
def writeCells (m : Memory) (base : Nat) : List Byte → Memory
  | [] => m
  | v :: rest => writeCells (writeCell m base v) (base + 1) rest

/-- Every cell lies at or above `low` and below 4096, addresses strictly rise, and no cell holds the byte its
address reads as when it is not listed. -/
def cellsWf (low : Nat) : Memory → Bool
  | [] => true
  | (a, v) :: rest => decide (low ≤ a) && decide (a < Config.memSize) && decide (v ≠ resetByte a)
      && cellsWf (a + 1) rest

/-- The canonical form: equal memories are equal lists. -/
def Memory.wf (m : Memory) : Bool := cellsWf 0 m

end Sys2Proof.Machine
end

