-- ==== Sys2Proof/Machine/State.lean ====
section
/-! DEFINITION. The state of the machine as plain data, the reasons a step can stop, and the state after reset
(10_state.md; 60_exceptions.md R117; 70_reset_and_hazards.md R134). -/

namespace Sys2Proof.Machine

/-- `disp[c][r]`: 64 columns of 32 pixels, `true` is on (R27). -/
abbrev Display := Vector (Vector Bool 32) 64

/-- The wait-for-key latch (R28). -/
structure Latch where
  active : Bool
  target : Reg
deriving DecidableEq, Repr

/-- The kinds of fatal condition with their kind-specific information (60_exceptions.md R117). -/
inductive FatalCondition where
  | illegalInstruction
  | stackUnderflow
  | stackOverflow
  | memOutOfRange (address : Nat)
  | keyIndexOutOfRange (index : Byte)
deriving DecidableEq, Repr

/-- The fault record (R32): the condition, the instruction word (none for a fetch fault) and the address the
word was fetched from. -/
structure FaultRecord where
  condition : FatalCondition
  word : Option Word
  addr : Word
deriving DecidableEq, Repr

/-- The run status (R31). -/
inductive RunStatus where
  | running
  | waiting
  | halted
deriving DecidableEq, Repr

/-- What the host does to the machine (R36; 60_exceptions.md R124 to R126). -/
inductive HostAction where
  | step (key : KeySnapshot) (rand8 : Byte)
  | tick
  | resume (k : Fin 16)
deriving DecidableEq, Repr

/-- The inputs of the step under way (R33, R34). -/
structure StepInputs where
  key : KeySnapshot
  rand8 : Byte
deriving DecidableEq, Repr

/-- The inputs between steps: none is held (R33; log entry 15). -/
def StepInputs.idle : StepInputs := { key := Vector.replicate 16 false, rand8 := 0 }

/-- The state. The fields down to `fault` are the spec's; `inputs`, `host` and `draws` are the model's own
(log entries 15, 7 and 6). -/
structure State where
  /-- Memory (20_memory.md R39). -/
  mem : Memory
  /-- V0 to VF (R16). -/
  x : Vector Byte 16
  /-- The index register (R23). -/
  i : Word
  /-- The program counter (R20). -/
  pc : Word
  /-- The delay timer (R24). -/
  dt : Byte
  /-- The sound timer (R25). -/
  st : Byte
  /-- The call stack, top at the end (R26; 00_scope.md R11). -/
  stack : List Word
  /-- The display buffer (R27). -/
  disp : Display
  /-- The wait-for-key latch (R28). -/
  latch : Latch
  /-- The fault record, if a fatal condition has been raised (R32). -/
  fault : Option FaultRecord
  /-- The inputs of the step under way; idle between steps. -/
  inputs : StepInputs
  /-- What the host does next, oldest first; with none listed it performs steps with free inputs. -/
  host : List HostAction
  /-- How many steps have drawn free inputs. -/
  draws : Nat
deriving DecidableEq, Repr

/-- Why the machine stops. No instruction's meaning answers one of these: a fatal condition is recorded in
`State.fault` by a next state (R118), and the action after it stops here. -/
inductive Fault where
  /-- Raised by `act` for any action on a halted core, with its fault record: a halted core performs no
  further step and no host action changes it (R31, R118). Safe: the hardware does not go on either. -/
  | halted (record : FaultRecord)
  /-- Raised by `act` for a step while the latch is active: the core performs no step until the host resumes
  it (R30, R126). Safe: the core waits, and only a resumption in the host list ends the wait. -/
  | stepWhileWaiting
  /-- Raised by `act` for a resumption of a core that does not wait: it is not enabled (R124).
  Safe: no such action happens. -/
  | resumeWhileRunning
deriving DecidableEq, Repr

/-- Why something has no meaning here. No step answers one of these: every instruction is modelled. -/
inductive Refusal where
  /-- Raised by an arm of `exec` whose instruction has no meaning yet (there is none). Safe. -/
  | notModelled (mnemonic : String)
  /-- Raised by `load` for an image of more than 3584 bytes, with its length: LoadImageTooLarge, no machine
  is built (70_reset_and_hazards.md R135). Safe: the hardware refuses it too. -/
  | loadImageTooLarge (length : Nat)
deriving DecidableEq, Repr

/-- The state right after reset with an empty image and the default FONT (70_reset_and_hazards.md R134). The
zeros of `x`, `i`, `dt`, `st`, `stack` and `latch` are the spec's decision D14 (log entry 5). -/
def State.reset : State where
  mem := []
  x := Vector.replicate 16 0
  i := 0
  pc := 512
  dt := 0
  st := 0
  stack := []
  disp := Vector.replicate 64 (Vector.replicate 32 false)
  latch := { active := false, target := 0 }
  fault := none
  inputs := StepInputs.idle
  host := []
  draws := 0

end Sys2Proof.Machine
end

