-- ==== Sys2Proof/Machine/Ops.lean ====
section
/-! DEFINITION. The named operations over registers, pc, stack, memory, display and the fault record: the
primitives of 00_scope.md R11 and R12, and raising a fatal condition (60_exceptions.md R118). -/

namespace Sys2Proof.Machine

/-- What `exec`, `act` and `step` answer. -/
abbrev Result := Host.Outcome State Fault Refusal

/-! ### General registers (10_state.md R16) -/

/-- `x[r]`. -/
def State.reg (s : State) (r : Reg) : Byte := s.x[r]

/-- `x[r] <- v`. No register is hardwired (R16). -/
def State.setReg (s : State) (r : Reg) (v : Byte) : State := { s with x := s.x.set r v }

/-! ### Index register, timers, latch -/

/-- `I <- v` (R23). -/
def State.setI (s : State) (v : Word) : State := { s with i := v }

/-- `DT <- v` (R24). -/
def State.setDt (s : State) (v : Byte) : State := { s with dt := v }

/-- `ST <- v` (R25). -/
def State.setSt (s : State) (v : Byte) : State := { s with st := v }

/-- Enter the key wait: `latch.active <- true`, `latch.target <- r` (R28). -/
def State.enterWait (s : State) (r : Reg) : State := { s with latch := { active := true, target := r } }

/-! ### Program counter (R20 to R22) -/

/-- `pc <- v`. -/
def State.setPc (s : State) (v : Word) : State := { s with pc := v }

/-- The advance before dispatch: `pc <- pc + 2` (30_encoding.md R62). -/
def State.advance (s : State) : State := s.setPc (s.pc + 2)

/-- `skip()` when the condition holds: `pc <- pc + 2` (40_control.md R70). -/
def State.skipIf (s : State) (condition : Bool) : State := if condition then s.setPc (s.pc + 2) else s

/-- The address A of the instruction under execution: `pc` holds A + 2 (R21; log entry 11). -/
def State.instrAddr (s : State) : Word := s.pc - 2

/-! ### Call stack (R26) -/

/-- `push(stack, a)`. -/
def State.push (s : State) (a : Word) : State := { s with stack := s.stack ++ [a] }

/-- `pop(stack)`: the last entry and the state without it, or nothing for an empty stack. -/
def State.pop (s : State) : Option (Word × State) :=
  match s.stack.getLast? with
  | none => none
  | some a => some (a, { s with stack := s.stack.dropLast })

/-- The stack is full under the given `STACK_LIMIT`. -/
def State.stackFull (s : State) (limit : Option Nat) : Bool :=
  match limit with
  | none => false
  | some l => decide (l ≤ s.stack.length)

/-! ### Memory (20_memory.md R42, R43, R50, R51) -/

/-- The byte at an address of memory. -/
def State.byte (s : State) (a : Nat) : Byte := readCell s.mem a

/-- `MemRead(a, 1)`: bounds-checked (00_scope.md R12). -/
def State.memRead (s : State) (a : Nat) : Except FatalCondition Byte :=
  if a < Config.memSize then .ok (s.byte a) else .error (.memOutOfRange a)

/-- The byte write of `MemWrite(a, 1, v)`, after its bounds check (00_scope.md R12). -/
def State.setByte (s : State) (a : Nat) (v : Byte) : State := { s with mem := writeCell s.mem a v }

/-- The range check that Fx33, Fx55 and Fx65 make before their first access: the range ends at `last`, and the
first offending address is `max(I, 4096)` (R50; 42_index_memory.md R98 to R100). -/
def rangeFault (base last : Nat) : Option FatalCondition :=
  if Config.memSize ≤ last then some (.memOutOfRange (max base Config.memSize)) else none

/-- Register number `n` (0 to 15). -/
def regNumber (n : Nat) : Reg := Fin.ofNat 16 n

/-- `for i = 0 to count - 1: MemWrite(base + i, 1, x[i])`, ascending (42_index_memory.md R99). -/
def State.storeRegs (s : State) (base : Nat) : Nat → State
  | 0 => s
  | count + 1 => (s.storeRegs base count).setByte (base + count) (s.reg (regNumber count))

/-- `for i = 0 to count - 1: x[i] <- MemRead(base + i, 1)`, ascending (42_index_memory.md R100). -/
def State.loadRegs (s : State) (base : Nat) : Nat → State
  | 0 => s
  | count + 1 => (s.loadRegs base count).setReg (regNumber count) (s.byte (base + count))

/-! ### Display (10_state.md R27) -/

/-- `disp[c][r]`. -/
def State.pixel (s : State) (c : Fin 64) (r : Fin 32) : Bool := s.disp[c][r]

/-- `disp[c][r] <- v`. -/
def State.setPixel (s : State) (c : Fin 64) (r : Fin 32) (v : Bool) : State :=
  { s with disp := s.disp.set c (s.disp[c].set r v) }

/-- Every pixel off. -/
def State.clearDisp (s : State) : State :=
  { s with disp := Vector.replicate 64 (Vector.replicate 32 false) }

/-! ### Fatal conditions (60_exceptions.md R116 to R119)

Raising one is the only exception the hardware has. It has no vector, no handler and no return
(R116, R119, R122), so there is no return operation beside it. -/

/-- Set the fault record; the run status becomes `halted` (R118). -/
def State.recordFault (s : State) (condition : FatalCondition) (word : Option Word) (addr : Word) : State :=
  { s with fault := some { condition := condition, word := word, addr := addr } }

/-- `raise` in the execute phase of the word `w`: the record names the word and its address, `pc` stays A + 2,
and the writes made so far stay (R118, R119). -/
def State.raise (s : State) (condition : FatalCondition) (w : Word) : State :=
  s.recordFault condition (some w) s.instrAddr

/-- A fetch fault: no word is recorded and `pc` stays A (R118; 30_encoding.md R60). -/
def State.raiseFetch (s : State) (condition : FatalCondition) : State :=
  s.recordFault condition none s.pc

/-- The run status, derived from the fault record and the latch (10_state.md R31, R145). -/
def State.status (s : State) : RunStatus :=
  match s.fault with
  | some _ => .halted
  | none => if s.latch.active then .waiting else .running

/-! ### Fetch (30_encoding.md R60) -/

/-- `Fetch(pc)`: the big-endian word at `pc`, at any alignment; MemOutOfRange(A) when A is out of range,
MemOutOfRange(A + 1) when only the second byte is. -/
def State.fetch (s : State) : Except FatalCondition Word :=
  match s.memRead s.pc.toNat with
  | .error c => .error c
  | .ok high =>
    match s.memRead (s.pc.toNat + 1) with
    | .error c => .error c
    | .ok low => .ok (wordOfBytes high low)

/-- Put a word where `fetch` reads it. -/
def State.placeWord (s : State) (w : Word) : State :=
  (s.setByte s.pc.toNat (highByte w)).setByte (s.pc.toNat + 1) (lowByte w)

/-! ### Step inputs (10_state.md R33, R34) -/

/-- `key[k]`. -/
def State.key (s : State) (k : Fin 16) : Bool := s.inputs.key[k]

/-- `rand8`. -/
def State.rand8 (s : State) : Byte := s.inputs.rand8

/-- Supply the inputs of a step. -/
def State.withInputs (s : State) (key : KeySnapshot) (rand8 : Byte) : State :=
  { s with inputs := { key := key, rand8 := rand8 } }

/-- The inputs are not stored past the step (R33). -/
def State.endStep (s : State) : State := { s with inputs := StepInputs.idle }

/-- Change the state of a result that goes on. -/
def onNext (r : Result) (f : State → State) : Result :=
  match r with
  | .next s => .next (f s)
  | .fault e => .fault e
  | .refused e => .refused e

end Sys2Proof.Machine
end

