-- ==== Sys2Proof/Machine/Operands.lean ====
section
/-! DEFINITION. Operand forms: the result operands of the flag-writing operations, the mask of Cxnn, the key
index, effective addresses, decimal digits, and sprite coordinates and bits. -/

namespace Sys2Proof.Machine

/-- An operand of the result of a flag-writing operation, under `VF_ALIAS` (41_alu.md R81). `old` is its value
before the flag write. Only register 15 can differ afterwards: `sequential` re-reads it and finds the flag. -/
def resultOperand (vfAlias : VfAlias) (r : Reg) (old flag : Byte) : Byte :=
  if r = VF then
    match vfAlias with
    | .snapshot => old
    | .sequential => flag
  else old

/-- The mask of Cxnn under `RAND_MASK` (41_alu.md R93): the low nibble zero-extended, or the whole byte. -/
def maskOf (mask : RandMask) (nn : Byte) : Byte :=
  match mask with
  | .n => zext8 (nn.extractLsb' 0 4)
  | .nn => nn

/-- The target of Bnnn: NNN + x[0], not reduced to 12 bits (40_control.md R74). -/
def offsetTarget (nnn : Addr12) (v0 : Byte) : Word := zext16 nnn + zext16 v0

/-- The key index of Ex9E and ExA1: the register's value, or none above 15 (44_timers_input.md R108). -/
def keyIndex (v : Byte) : Option (Fin 16) := if h : v.toNat < 16 then some ⟨v.toNat, h⟩ else none

/-- The effective base address of a memory access through I, an exact natural number (20_memory.md R43). -/
def State.base (s : State) : Nat := s.i.toNat

/-- The address of a glyph in the font table: five bytes a glyph, the whole value scaled
(42_index_memory.md R97). -/
def glyphAddr (v : Byte) : Word := zext16 v * 5

/-- The hundreds digit (42_index_memory.md R98). -/
def hundreds (v : Byte) : Byte := BitVec.ofNat 8 (v.toNat / 100)

/-- The tens digit (R98). -/
def tens (v : Byte) : Byte := BitVec.ofNat 8 (v.toNat / 10 % 10)

/-- The units digit (R98). -/
def units (v : Byte) : Byte := BitVec.ofNat 8 (v.toNat % 10)

/-- The origin column `x[X] AND 63` (43_display.md R103). -/
def originCol (v : Byte) : Nat := (v &&& 63).toNat

/-- The origin row `x[Y] AND 31` (R103; conflict C2). -/
def originRow (v : Byte) : Nat := (v &&& 31).toNat

/-- Column `c` of a sprite row: bit 7 - c, most-significant bit first (R106; 00_scope.md R9). -/
def spriteBit (row : Byte) (c : Nat) : Bool := row.getLsbD (7 - c)

end Sys2Proof.Machine
end

