-- ==== Sys2Proof/Machine/Flags.lean ====
section
/-! DEFINITION. The values written to VF (10_state.md R18; 41_alu.md R88 to R92), and the frame of the five
flag-writing operations (R81). -/

namespace Sys2Proof.Machine

/-- A flag as a register value. -/
def flagByte (b : Bool) : Byte := if b then 1 else 0

/-- 8xy4: 1 if a + b > 255 (R88). -/
def carryFlag (a b : Byte) : Byte := flagByte (decide (255 < a.toNat + b.toNat))

/-- 8xy5 and, with its operands exchanged, 8xy7: 1 if a > b, strictly (R89, R91). -/
def greaterFlag (a b : Byte) : Byte := flagByte (decide (b.toNat < a.toNat))

/-- 8xy6: the bit shifted out to the right, bit 0 (R90). -/
def lowBitFlag (a : Byte) : Byte := a &&& 1

/-- 8xyE: the bit shifted out to the left, bit 7 (R92). -/
def highBitFlag (a : Byte) : Byte := a >>> 7

/-- The frame of 8xy4, 8xy5 and 8xy7 (R81): VF first, then x[X], the result taken from the operands under
`VF_ALIAS`. -/
def State.flagOp2 (s : State) (vfAlias : VfAlias) (x y : Reg) (flag result : Byte → Byte → Byte) : State :=
  let f := flag (s.reg x) (s.reg y)
  let a := resultOperand vfAlias x (s.reg x) f
  let b := resultOperand vfAlias y (s.reg y) f
  (s.setReg VF f).setReg x (result a b)

/-- The frame of 8xy6 and 8xyE (R81, R90, R92): register Y is not read. -/
def State.flagOp1 (s : State) (vfAlias : VfAlias) (x : Reg) (flag result : Byte → Byte) : State :=
  let f := flag (s.reg x)
  (s.setReg VF f).setReg x (result (resultOperand vfAlias x (s.reg x) f))

end Sys2Proof.Machine
end

