-- ==== Sys2Proof/Machine/Alu.lean ====
section
/-! DEFINITION. Register arithmetic and logic (41_alu.md). -/

namespace Sys2Proof.Machine

/-- LD Vx, nn (R82). -/
def execLdImm (x : Reg) (nn : Byte) (s : State) : Result := .next (s.setReg x nn)

/-- ADD Vx, nn (R83): wrapping, no flag. -/
def execAddImm (x : Reg) (nn : Byte) (s : State) : Result := .next (s.setReg x (s.reg x + nn))

/-- LD Vx, Vy (R84). -/
def execLdReg (x y : Reg) (s : State) : Result := .next (s.setReg x (s.reg y))

/-- OR Vx, Vy (R85). -/
def execOrReg (x y : Reg) (s : State) : Result := .next (s.setReg x (s.reg x ||| s.reg y))

/-- AND Vx, Vy (R86). -/
def execAndReg (x y : Reg) (s : State) : Result := .next (s.setReg x (s.reg x &&& s.reg y))

/-- XOR Vx, Vy (R87). -/
def execXorReg (x y : Reg) (s : State) : Result := .next (s.setReg x (s.reg x ^^^ s.reg y))

/-- ADD Vx, Vy (R88). -/
def execAddReg (x y : Reg) (s : State) : Result :=
  .next (s.flagOp2 Config.vfAlias x y carryFlag (fun a b => a + b))

/-- SUB Vx, Vy (R89). -/
def execSubReg (x y : Reg) (s : State) : Result :=
  .next (s.flagOp2 Config.vfAlias x y greaterFlag (fun a b => a - b))

/-- SHR Vx (R90); the Y nibble is ignored (R64). -/
def execShr (x : Reg) (_ign : Nibble) (s : State) : Result :=
  .next (s.flagOp1 Config.vfAlias x lowBitFlag (fun a => a >>> 1))

/-- SUBN Vx, Vy (R91). -/
def execSubnReg (x y : Reg) (s : State) : Result :=
  .next (s.flagOp2 Config.vfAlias x y (fun a b => greaterFlag b a) (fun a b => b - a))

/-- SHL Vx (R92); the Y nibble is ignored (R64). -/
def execShl (x : Reg) (_ign : Nibble) (s : State) : Result :=
  .next (s.flagOp1 Config.vfAlias x highBitFlag (fun a => a <<< 1))

/-- RND Vx, nn under a given `RAND_MASK` (R93). -/
def rndUnder (mask : RandMask) (x : Reg) (nn : Byte) (s : State) : State :=
  s.setReg x (s.rand8 &&& maskOf mask nn)

/-- RND Vx, nn (R93). -/
def execRnd (x : Reg) (nn : Byte) (s : State) : Result := .next (rndUnder randMask x nn s)

end Sys2Proof.Machine
end

