-- ==== Sys2Proof/Machine/Control.lean ====
section
/-! DEFINITION. Control transfer (40_control.md). In every meaning `pc` already holds A + 2 (00_scope.md R13). -/

namespace Sys2Proof.Machine

/-- RET (R71). -/
def execRet (ign : Nibble) (s : State) : Result :=
  match s.pop with
  | none => .next (s.raise .stackUnderflow (encode (.ret ign)))
  | some (a, s') => .next (s'.setPc a)

/-- JP nnn (R72). -/
def execJp (nnn : Addr12) (s : State) : Result := .next (s.setPc (zext16 nnn))

/-- CALL nnn under a given `STACK_LIMIT` (R73). -/
def callUnder (limit : Option Nat) (nnn : Addr12) (s : State) : State :=
  if s.stackFull limit then s.raise .stackOverflow (encode (.call nnn))
  else (s.push s.pc).setPc (zext16 nnn)

/-- CALL nnn (R73). -/
def execCall (nnn : Addr12) (s : State) : Result := .next (callUnder stackLimit nnn s)

/-- JP V0, nnn (R74). -/
def execJpV0 (nnn : Addr12) (s : State) : Result := .next (s.setPc (offsetTarget nnn (s.reg 0)))

/-- SE Vx, nn (R75). -/
def execSeImm (x : Reg) (nn : Byte) (s : State) : Result := .next (s.skipIf (s.reg x == nn))

/-- SNE Vx, nn (R76). -/
def execSneImm (x : Reg) (nn : Byte) (s : State) : Result := .next (s.skipIf (s.reg x != nn))

/-- SE Vx, Vy (R77); the N nibble is ignored (R64). -/
def execSeReg (x y : Reg) (_ign : Nibble) (s : State) : Result := .next (s.skipIf (s.reg x == s.reg y))

/-- SNE Vx, Vy (R78); the N nibble is ignored (R64). -/
def execSneReg (x y : Reg) (_ign : Nibble) (s : State) : Result := .next (s.skipIf (s.reg x != s.reg y))

end Sys2Proof.Machine
end

