-- ==== Sys2Proof/Machine/DisplayOps.lean ====
section
/-! DEFINITION. Display buffer update (43_display.md). -/

namespace Sys2Proof.Machine

/-- CLS (R101); the X nibble is ignored (R64). -/
def execCls (_ign : Nibble) (s : State) : Result := .next s.clearDisp

/-- An on bit of the sprite meets the pixel: an on pixel goes off with VF set, an off pixel goes on (R106). -/
def State.togglePixel (s : State) (c : Fin 64) (r : Fin 32) : State :=
  if s.pixel c r then (s.setPixel c r false).setReg VF 1 else s.setPixel c r true

/-- The column loop of one sprite row: `cols` are the columns still to do, `cx` the origin column, `y` the row
of the display. A column past the right edge ends the loop (R105). -/
def State.drawCols (s : State) (row : Byte) (cx : Nat) (y : Fin 32) : List Nat → State
  | [] => s
  | c :: cols =>
    if h : cx + c < 64 then
      (if spriteBit row c then s.togglePixel ⟨cx + c, h⟩ y else s).drawCols row cx y cols
    else s

/-- The row loop: `rows` are the rows still to do, `base` is I, `cy` the origin row, `w` the instruction word.
A row's byte is read, and bounds-checked, before its own row test (R107); a row past the bottom edge ends the
loop (R105). -/
def State.drawRows (s : State) (w : Word) (base cx cy : Nat) : List Nat → State
  | [] => s
  | r :: rows =>
    match s.memRead (base + r) with
    | .error c => s.raise c w
    | .ok row =>
      if h : cy + r < 32 then
        (s.drawCols row cx ⟨cy + r, h⟩ (List.range 8)).drawRows w base cx cy rows
      else s

/-- DRW Vx, Vy, n (R102): the origin is read, then VF is cleared, then the rows are drawn (R104). -/
def execDrw (x y : Reg) (n : Nibble) (s : State) : Result :=
  let cx := originCol (s.reg x)
  let cy := originRow (s.reg y)
  .next ((s.setReg VF 0).drawRows (encode (.drw x y n)) s.base cx cy (List.range n.toNat))

end Sys2Proof.Machine
end

