-- ==== Sys2Proof/Machine/IndexMemory.lean ====
section
/-! DEFINITION. Index register and memory transfer (42_index_memory.md). -/

namespace Sys2Proof.Machine

/-- LD I, nnn (R95). -/
def execLdI (nnn : Addr12) (s : State) : Result := .next (s.setI (zext16 nnn))

/-- ADD I, Vx (R96): modulo 65536, no flag. -/
def execAddI (x : Reg) (s : State) : Result := .next (s.setI (s.i + zext16 (s.reg x)))

/-- LD F, Vx (R97). -/
def execLdFont (x : Reg) (s : State) : Result := .next (s.setI (glyphAddr (s.reg x)))

/-- LD B, Vx (R98). -/
def execLdBcd (x : Reg) (s : State) : Result :=
  match rangeFault s.base (s.base + 2) with
  | some c => .next (s.raise c (encode (.ldBcd x)))
  | none =>
    let v := s.reg x
    .next (((s.setByte s.base (hundreds v)).setByte (s.base + 1) (tens v)).setByte (s.base + 2) (units v))

/-- LD [I], Vx (R99). -/
def execStRegs (x : Reg) (s : State) : Result :=
  match rangeFault s.base (s.base + x.val) with
  | some c => .next (s.raise c (encode (.stRegs x)))
  | none => .next (s.storeRegs s.base (x.val + 1))

/-- LD Vx, [I] (R100). -/
def execLdRegs (x : Reg) (s : State) : Result :=
  match rangeFault s.base (s.base + x.val) with
  | some c => .next (s.raise c (encode (.ldRegs x)))
  | none => .next (s.loadRegs s.base (x.val + 1))

end Sys2Proof.Machine
end

