-- ==== Sys2Proof/Machine/TimersInput.lean ====
section
/-! DEFINITION. Key input, key wait and timers (44_timers_input.md). -/

namespace Sys2Proof.Machine

/-- SKP Vx (R110). -/
def execSkp (x : Reg) (s : State) : Result :=
  match keyIndex (s.reg x) with
  | none => .next (s.raise (.keyIndexOutOfRange (s.reg x)) (encode (.skp x)))
  | some k => .next (s.skipIf (s.key k))

/-- SKNP Vx (R111). -/
def execSknp (x : Reg) (s : State) : Result :=
  match keyIndex (s.reg x) with
  | none => .next (s.raise (.keyIndexOutOfRange (s.reg x)) (encode (.sknp x)))
  | some k => .next (s.skipIf (!s.key k))

/-- LD Vx, DT (R109, R112). -/
def execLdRegDt (x : Reg) (s : State) : Result := .next (s.setReg x s.dt)

/-- LD Vx, K (R113): sets the latch and does not itself block. -/
def execLdKey (x : Reg) (s : State) : Result := .next (s.enterWait x)

/-- LD DT, Vx (R109, R114). -/
def execLdDtReg (x : Reg) (s : State) : Result := .next (s.setDt (s.reg x))

/-- LD ST, Vx (R109, R115). -/
def execLdStReg (x : Reg) (s : State) : Result := .next (s.setSt (s.reg x))

end Sys2Proof.Machine
end

