-- ==== Sys2Proof/Machine/HostActions.lean ====
section
/-! DEFINITION. What the host does between steps: the tick, the key-wait resumption and the load of a program
image (60_exceptions.md R124, R125, R127; 70_reset_and_hazards.md R134, R135). -/

namespace Sys2Proof.Machine

/-- A timer counts down and stays at 0 (R125). -/
def countDown (v : Byte) : Byte := if v = 0 then 0 else v - 1

/-- `tick`: both timers count down (R125). -/
def State.tick (s : State) : State := { s with dt := countDown s.dt, st := countDown s.st }

/-- `resume(k)`: the key goes to the latch's register and the latch is cleared; `pc` is not changed (R124). -/
def State.resume (s : State) (k : Fin 16) : State :=
  let s' := s.setReg s.latch.target (BitVec.ofNat 8 k)
  { s' with latch := { s'.latch with active := false } }

/-- The next action of the host. With none listed it is a step with free inputs (log entries 6 and 7). -/
def State.nextAction (s : State) : HostAction :=
  match s.host with
  | [] => .step (Config.freeKeys s.draws) (Config.freeRand8 s.draws)
  | a :: _ => a

/-- The state without its next action. -/
def State.dropAction (s : State) : State :=
  match s.host with
  | [] => { s with draws := s.draws + 1 }
  | _ :: rest => { s with host := rest }

/-- Memory after step 2 of reset: every byte 0 (70_reset_and_hazards.md R134). -/
def zeroMemory : Memory := writeCells [] 0 (List.replicate Config.fontSize 0)

/-- Memory after reset with a font and an image: zeroed, then the font, then the image (R134). -/
def loadedMemory (fnt : Vector Byte 80) (image : List Byte) : Memory :=
  writeCells (writeCells zeroMemory 0 fnt.toList) Config.imageBase image

/-- Reset: the construction of the machine from a program image and a `FONT` (R134); an image that does not
fit is refused before anything else (R135). -/
def load (fnt : Vector Byte 80) (image : List Byte) : Result :=
  if imageFits image then .next { State.reset with mem := loadedMemory fnt image }
  else .refused (.loadImageTooLarge image.length)

end Sys2Proof.Machine
end

