-- ==== Sys2Proof/Machine/Cycle.lean ====
section
/-! DEFINITION. One fetch-decode-execute step and the host's actions with their enabling conditions
(30_encoding.md R60 to R63; 60_exceptions.md R120, R124 to R126). -/

namespace Sys2Proof.Machine

/-- Fetch, advance, dispatch, execute, in this order; the first check that fails is the one reported (R120).
An illegal word is fatal after the advance (R62, R65). -/
def instructionCycle (s : State) : Result :=
  match s.fetch with
  | .error c => .next (s.raiseFetch c)
  | .ok w =>
    match decodeWord w with
    | .error _ => .next (s.advance.raise .illegalInstruction w)
    | .ok i => exec i s.advance

/-- One action of the host, if the status enables it: a step only while running (R126), a tick unless halted
(R125), a resumption only while waiting (R124). -/
def act (a : HostAction) (s : State) : Result :=
  match s.fault with
  | some record => .fault (.halted record)
  | none =>
    match a with
    | .tick => .next s.tick
    | .resume k => if s.latch.active then .next (s.resume k) else .fault .resumeWhileRunning
    | .step key rand8 =>
      if s.latch.active then .fault .stepWhileWaiting
      else onNext (instructionCycle (s.withInputs key rand8)) State.endStep

end Sys2Proof.Machine
end

