-- ==== Sys2Proof/Machine/Step.lean ====
section
/-! DEFINITION. The step of the machine: the host's next action (60_exceptions.md R127), and a word placed
where the next step fetches it. -/

namespace Sys2Proof.Machine

/-- The host's next action, taken from its list, or a step with free inputs when none is listed. -/
def step (s : State) : Host.Outcome State Fault Refusal := act s.nextAction s.dropAction

/-- The state with everything in it that lets the very next `step` be an instruction step: no fault recorded,
no key wait, `pc` where a word fits (else at the entry point), and the host's next action a step. A state that
is so already is unchanged. Log entry 13. -/
def State.readyToFetch (s : State) : State :=
  { s with
    fault := none
    latch := { s.latch with active := false }
    pc := if s.pc.toNat + 1 < Config.memSize then s.pc else 512
    host := match s.host with
      | .step key rand8 :: rest => .step key rand8 :: rest
      | _ => [] }

/-- The instruction of the opcode table's word `w` of `nbits` bits, stored big-endian at `pc`. -/
def State.withFetchWord (s : State) (nbits w : Nat) : State := s.readyToFetch.placeWord (tableWord nbits w)

end Sys2Proof.Machine
end

