-- ==== Sys2Proof/Safety.lean ====
section
/-! DEFINITION. The terms claims are made in: what a run may rely on (60_exceptions.md R118, R132), the parts
of the state and what leaves them unchanged, and the invariant of the machine. -/

namespace Sys2Proof.Machine

/-! ### Runs -/

/-- No fault recorded: the premise of a claim about a program (60_exceptions.md R118). -/
def State.noFault (s : State) : Prop := s.fault = none

/-- The end of a run for claims about programs: halted, or the instruction at `pc` is `JP pc`
(60_exceptions.md R132). It does not say that the hardware stops there (D28). -/
def State.endOfRun (s : State) : Bool :=
  s.status == .halted ||
    match s.fetch with
    | .ok w => fieldOp w == 0x1#4 && zext16 (fieldNNN w) == s.pc
    | .error _ => false

/-! ### Frames -/

/-- The parts of the state that an instruction can change or leave alone. -/
inductive Part where
  | reg (r : Reg)
  | i
  | pc
  | dt
  | st
  | stack
  | pixel (c : Fin 64) (r : Fin 32)
  | latch
  | fault
  | byte (a : Nat)
  | inputs
  | host
  | draws
deriving DecidableEq, Repr

/-- The two states agree on a part; memory is compared byte by byte, as reads. -/
def SamePart (s t : State) : Part → Prop
  | .reg r => t.reg r = s.reg r
  | .i => t.i = s.i
  | .pc => t.pc = s.pc
  | .dt => t.dt = s.dt
  | .st => t.st = s.st
  | .stack => t.stack = s.stack
  | .pixel c r => t.pixel c r = s.pixel c r
  | .latch => t.latch = s.latch
  | .fault => t.fault = s.fault
  | .byte a => t.byte a = s.byte a
  | .inputs => t.inputs = s.inputs
  | .host => t.host = s.host
  | .draws => t.draws = s.draws

/-- Every part outside `changed` is unchanged from `s` to `t`. -/
def SameExcept (changed : Part → Prop) (s t : State) : Prop := ∀ p, ¬ changed p → SamePart s t p

/-- Every part outside the list is unchanged from `s` to `t`. -/
def SameBut (changed : List Part) (s t : State) : Prop := SameExcept (· ∈ changed) s t

/-- The whole effect of a fatal condition raised in the execute phase when the instruction wrote nothing
before it (R118): the record is set, and nothing else changes. -/
def Raised (condition : FatalCondition) (w : Word) (s t : State) : Prop :=
  t.fault = some { condition := condition, word := some w, addr := s.pc - 2 } ∧ SameBut [.fault] s t

/-! ### Results -/

/-- The effect of a flag-writing operation (41_alu.md R81) on registers X and Y: `flag` is the value for VF and
`result` the result as a function of the two operands, all as numbers. When X is register 15 the result is what
VF holds at the end. The result uses the old operands; only with X or Y = 15 and `VF_ALIAS = sequential` does it
use the flag in register 15's place (which of the two holds is open in the spec, D5; log entry 1). Nothing but x[X] and VF changes. -/
def FlagWritten (x y : Reg) (flag : Nat) (result : Nat → Nat → Nat) (s t : State) : Prop :=
  (x ≠ VF → (t.reg VF).toNat = flag) ∧
  (x ≠ VF → y ≠ VF → (t.reg x).toNat = result (s.reg x).toNat (s.reg y).toNat) ∧
  (Config.vfAlias = .snapshot → (t.reg x).toNat = result (s.reg x).toNat (s.reg y).toNat) ∧
  (Config.vfAlias = .sequential →
    (t.reg x).toNat = result (if x = VF then flag else (s.reg x).toNat)
      (if y = VF then flag else (s.reg y).toNat)) ∧
  SameBut [.reg x, .reg VF] s t

/-- An on bit of the sprite that `DRW Vx, Vy, n` draws from the state lands on pixel (c, r): bit 7 - col of the
byte of some row, with column `col` of row `row` at (x[X] mod 64 + col, x[Y] mod 32 + row) (43_display.md R103,
R105, R106), the row's byte being one that exists (R107). -/
def SpriteOn (s : State) (x y : Reg) (n : Nibble) (c : Fin 64) (r : Fin 32) : Prop :=
  ∃ row col : Nat, row < n.toNat ∧ col < 8 ∧ s.i.toNat + row < Config.memSize ∧
    (s.reg x).toNat % 64 + col = c ∧ (s.reg y).toNat % 32 + row = r ∧
    (s.byte (s.i.toNat + row)).toNat / 2 ^ (7 - col) % 2 = 1

/-- `DRW Vx, Vy, n` reaches a row whose byte does not exist: rows are reached, and read, down to the first one
below the bottom edge (43_display.md R107). -/
def SpriteReadFaults (s : State) (y : Reg) (n : Nibble) : Prop :=
  ∃ row : Nat, row < n.toNat ∧ (s.reg y).toNat % 32 + row ≤ 32 ∧ Config.memSize ≤ s.i.toNat + row

/-- The general registers that an instruction may write (10_state.md R17, R18). -/
def WritesReg (i : Instr) (r : Reg) : Prop :=
  match i with
  | .ldImm x _ | .addImm x _ | .ldReg x _ | .orReg x _ | .andReg x _ | .xorReg x _ | .rnd x _
  | .ldRegDt x => r = x
  | .addReg x _ | .subReg x _ | .shr x _ | .subnReg x _ | .shl x _ => r = x ∨ r = VF
  | .drw _ _ _ => r = VF
  | .ldRegs x => r ≤ x
  | .cls _ | .ret _ | .jp _ | .call _ | .seImm _ _ | .sneImm _ _ | .seReg _ _ _ | .sneReg _ _ _
  | .ldI _ | .jpV0 _ | .skp _ | .sknp _ | .ldKey _ | .ldDtReg _ | .ldStReg _ | .addI _ | .ldFont _
  | .ldBcd _ | .stRegs _ => False

/-- The condition of a skip instruction in a state (40_control.md R75 to R78; 44_timers_input.md R110, R111); no
other instruction has one. -/
def SkipHolds (i : Instr) (s : State) : Prop :=
  match i with
  | .seImm x nn => s.reg x = nn
  | .sneImm x nn => s.reg x ≠ nn
  | .seReg x y _ => s.reg x = s.reg y
  | .sneReg x y _ => s.reg x ≠ s.reg y
  | .skp x => ∃ k : Fin 16, (s.reg x).toNat = k ∧ s.key k = true
  | .sknp x => ∃ k : Fin 16, (s.reg x).toNat = k ∧ s.key k = false
  | .cls _ | .ret _ | .jp _ | .call _ | .ldImm _ _ | .addImm _ _ | .ldReg _ _ | .orReg _ _ | .andReg _ _
  | .xorReg _ _ | .addReg _ _ | .subReg _ _ | .shr _ _ | .subnReg _ _ | .shl _ _ | .ldI _ | .jpV0 _
  | .rnd _ _ | .drw _ _ _ | .ldRegDt _ | .ldKey _ | .ldDtReg _ | .ldStReg _ | .addI _ | .ldFont _
  | .ldBcd _ | .stRegs _ | .ldRegs _ => False

/-- The fatal conditions an instruction can raise (60_exceptions.md R117). -/
def MayRaise (i : Instr) (c : FatalCondition) (s : State) : Prop :=
  match i with
  | .ret _ => c = .stackUnderflow
  | .call _ => c = .stackOverflow
  | .skp x | .sknp x => c = .keyIndexOutOfRange (s.reg x)
  | .drw _ _ _ | .ldBcd _ | .stRegs _ | .ldRegs _ => c = .memOutOfRange (max s.i.toNat Config.memSize)
  | .cls _ | .jp _ | .seImm _ _ | .sneImm _ _ | .seReg _ _ _ | .ldImm _ _ | .addImm _ _ | .ldReg _ _
  | .orReg _ _ | .andReg _ _ | .xorReg _ _ | .addReg _ _ | .subReg _ _ | .shr _ _ | .subnReg _ _
  | .shl _ _ | .sneReg _ _ _ | .ldI _ | .jpV0 _ | .rnd _ _ | .ldRegDt _ | .ldKey _ | .ldDtReg _
  | .ldStReg _ | .addI _ | .ldFont _ => False

/-! ### The invariant -/

/-- A fault record is precise (R118, R119): the core does not wait; a fetch fault has no word, is an address
out of range and leaves `pc` at A; any other has its word and leaves `pc` at A + 2, with A fetched in range. -/
def State.recordPrecise (s : State) : Prop :=
  ∀ r, s.fault = some r →
    s.latch.active = false ∧
    (r.word = none → s.pc = r.addr ∧ ∃ a, r.condition = .memOutOfRange a ∧ Config.memSize ≤ a) ∧
    (∀ w, r.word = some w → s.pc = r.addr + 2 ∧ r.addr.toNat ≤ 4094)

/-- The state between two steps: memory in its canonical form, `pc` in 0 to 4350 (10_state.md R20, D4), every
return address at most 4096 (40_control.md R71), a stack within its limit (R26), idle inputs (R33), and a
precise fault record. -/
structure State.Inv (s : State) : Prop where
  memory : s.mem.wf = true
  pcRange : s.pc.toNat ≤ 4350
  returns : ∀ a ∈ s.stack, a.toNat ≤ 4096
  depth : ∀ l, stackLimit = some l → s.stack.length ≤ l
  idle : s.inputs = StepInputs.idle
  record : s.recordPrecise

end Sys2Proof.Machine
end

