-- ==== Sys2Proof/Certificates/Slice0/Obligations.lean ====
section
/-! DEFINITION. The statements for the provers. `exec` is the execute phase, in which `pc` already holds the
instruction's address plus 2 (00_scope.md R13); `act` is one action of the host with its enabling condition;
`step` is the host's next action. Parts named in `SameBut` or `SameExcept` are all that may change.
Log entries are those of notes/assumptions. -/

open Sys2Proof Sys2Proof.Machine

/-! ### Encoding (30_encoding.md) -/

/-- R57: the fields are views of the same 16 bits, at the places the rule gives them. -/
def Obligations.FieldsAreViewsOfOneWord : Prop :=
  ∀ w : Word,
    w.toNat = (fieldOp w).toNat * 4096 + (fieldX w).toNat * 256 + (fieldY w).toNat * 16 + (fieldN w).toNat ∧
    (fieldNN w).toNat = (fieldY w).toNat * 16 + (fieldN w).toNat ∧
    (fieldNNN w).toNat = (fieldX w).toNat * 256 + (fieldY w).toNat * 16 + (fieldN w).toNat

/-- Decoding the word of an instruction gives the instruction back, with every operand at every value, and the
same through the two bytes in memory, whatever bytes follow (sections 1 and 2). -/
def Obligations.DecodeOfEncodeIsTheInstruction : Prop :=
  ∀ (i : Instr) (rest : List Byte),
    i.wellFormed = true ∧ decodeWord (encode i) = .ok i ∧ decode (encodeBytes i ++ rest) = .ok (i, rest)

/-- An instruction stands for exactly one word: encoding what was decoded gives the word back. The ignored
nibbles are kept as the model's choice (log entry 10). -/
def Obligations.EncodeOfDecodeIsTheWord : Prop :=
  ∀ (w : Word) (i : Instr), decodeWord w = .ok i → encode i = w

/-- Section 4: a word is a row's instruction iff `w AND mask = pattern`; every mnemonic has exactly one row, and
no word matches two rows. -/
def Obligations.DecoderAgreesWithOpcodeMap : Prop :=
  (∀ (w : Word) (row : OpcodeRow), row ∈ opcodeRows →
    (w &&& row.mask = row.pattern ↔ ∃ i, decodeWord w = .ok i ∧ i.mnemonic = row.mnemonic)) ∧
  (∀ m : Mnemonic, ∃ row, row ∈ opcodeRows ∧ row.mnemonic = m) ∧
  (∀ (w : Word) (row row' : OpcodeRow), row ∈ opcodeRows → row' ∈ opcodeRows →
    w &&& row.mask = row.pattern → w &&& row'.mask = row'.pattern → row = row') ∧
  opcodeRows.length = 34

/-- Section 3: the illegal words are exactly the four groups of the list there. -/
def Obligations.IllegalWordsAreTheListedOnes : Prop :=
  ∀ w : Word, (∃ e, decodeWord w = .error e) ↔
    (fieldOp w = 0x0 ∧ fieldNN w ∉ ([0xE0, 0xEE] : List Byte)) ∨
    (fieldOp w = 0x8 ∧ fieldN w ∈ ([0x8, 0x9, 0xA, 0xB, 0xC, 0xD, 0xF] : List Nibble)) ∨
    (fieldOp w = 0xE ∧ fieldNN w ∉ ([0x9E, 0xA1] : List Byte)) ∨
    (fieldOp w = 0xF ∧ fieldNN w ∉ ([0x07, 0x0A, 0x15, 0x18, 0x1E, 0x29, 0x33, 0x55, 0x65] : List Byte))

/-- The nibbles that are neither discriminators nor operands are not examined, and do not change the effect: the
spec's own reading, 93_implementation_defined.md section 2, "Ignored nibbles". (For RET the effect is the one on a
stack that is not empty; on an empty one the fault record names the word itself, see `ReturnPopsTheStack`.) -/
def Obligations.IgnoredNibblesHaveNoEffect : Prop :=
  (∀ w : Word, fieldOp w = 0x0 → fieldNN w = 0xE0 → ∃ ign, decodeWord w = .ok (.cls ign)) ∧
  (∀ w : Word, fieldOp w = 0x0 → fieldNN w = 0xEE → ∃ ign, decodeWord w = .ok (.ret ign)) ∧
  (∀ w : Word, fieldOp w = 0x5 → ∃ ign, decodeWord w = .ok (.seReg (regX w) (regY w) ign)) ∧
  (∀ w : Word, fieldOp w = 0x9 → ∃ ign, decodeWord w = .ok (.sneReg (regX w) (regY w) ign)) ∧
  (∀ w : Word, fieldOp w = 0x8 → fieldN w = 0x6 → ∃ ign, decodeWord w = .ok (.shr (regX w) ign)) ∧
  (∀ w : Word, fieldOp w = 0x8 → fieldN w = 0xE → ∃ ign, decodeWord w = .ok (.shl (regX w) ign)) ∧
  (∀ (s : State) (a b : Nibble) (x y : Reg),
    exec (.cls a) s = exec (.cls b) s ∧
    (s.stack ≠ [] → exec (.ret a) s = exec (.ret b) s) ∧
    exec (.seReg x y a) s = exec (.seReg x y b) s ∧
    exec (.sneReg x y a) s = exec (.sneReg x y b) s ∧
    exec (.shr x a) s = exec (.shr x b) s ∧
    exec (.shl x a) s = exec (.shl x b) s)

/-- Words written out from the patterns of section 4 decode to what they stand for. -/
def Obligations.SomeWordsDecodeAsTheMapSays : Prop :=
  decodeWord 0x05E0 = .ok (.cls 5) ∧ decodeWord 0x00EE = .ok (.ret 0) ∧
  decodeWord 0x1ABC = .ok (.jp 0xABC) ∧ decodeWord 0x3233 = .ok (.seImm 2 0x33) ∧
  decodeWord 0x8127 = .ok (.subnReg 1 2) ∧ decodeWord 0xD015 = .ok (.drw 0 1 5) ∧
  decodeWord 0xE3A1 = .ok (.sknp 3) ∧ decodeWord 0xF265 = .ok (.ldRegs 2) ∧
  decodeWord 0x0000 = .error .illegalFamily0 ∧ decodeWord 0x8128 = .error .illegalFamily8

/-- Section 5: the assembler refuses an operand that does not fit and takes exactly the instruction's operands;
it encodes ignored nibbles as 0, and any other operand as written. -/
def Obligations.AssemblerTakesFittingOperands : Prop :=
  (∀ (m : Mnemonic) (ops : List Operand), ops.all Operand.wellFormed = false →
    assemble m ops = .error .operandDoesNotFit) ∧
  (∀ (m : Mnemonic) (ops : List Operand) (i : Instr), assemble m ops = .ok i →
    i.mnemonic = m ∧ i.operands = ops ∧ ops.all Operand.wellFormed = true) ∧
  (∀ i : Instr, ∃ j, assemble i.mnemonic i.operands = .ok j ∧ j.mnemonic = i.mnemonic ∧
    j.operands = i.operands ∧
    (∀ ign, j = .cls ign ∨ j = .ret ign → ign = 0) ∧
    (∀ x ign, j = .shr x ign ∨ j = .shl x ign → ign = 0) ∧
    (∀ x y ign, j = .seReg x y ign ∨ j = .sneReg x y ign → ign = 0))

/-! ### Fetch, step and host actions (20_memory.md, 30_encoding.md, 60_exceptions.md) -/

/-- The word at `pc` has the byte at the lower address as its bits 15 to 8 (20_memory.md section 4), in every state.
That an odd `pc` fetches like an even one is not in that rule: it is the spec's decision D3 (log entry 21, DESIGN CHOICE,
unsafe). -/
def Obligations.FetchIsBigEndian : Prop :=
  ∀ s : State, s.pc.toNat + 1 < 4096 →
    ∃ w, s.fetch = .ok w ∧ w.toNat = (s.byte s.pc.toNat).toNat * 256 + (s.byte (s.pc.toNat + 1)).toNat

/-- A fetch that touches an address of 4096 or more is MemOutOfRange of the first such address: no word is
recorded, `pc` stays at A, and nothing else changes. Rests on the spec's decisions D2 and D19. -/
def Obligations.FetchPastMemoryIsFatal : Prop :=
  ∀ (s : State) (key : KeySnapshot) (rand8 : Byte),
    s.status = .running → 4096 ≤ s.pc.toNat + 1 →
    ∃ t, act (.step key rand8) s = .next t ∧
      t.fault = some { condition := .memOutOfRange (max s.pc.toNat 4096), word := none, addr := s.pc } ∧
      t.status = .halted ∧ t.inputs = StepInputs.idle ∧ SameBut [.fault, .inputs] s t

/-- An illegal word is fatal: the record holds the word and its address, `pc` has been advanced, and nothing
else changes. Rests on the spec's decision D19. -/
def Obligations.IllegalInstructionIsFatal : Prop :=
  ∀ (s : State) (key : KeySnapshot) (rand8 : Byte) (w : Word) (e : DecodeError),
    s.status = .running → s.fetch = .ok w → decodeWord w = .error e →
    ∃ t, act (.step key rand8) s = .next t ∧
      t.fault = some { condition := .illegalInstruction, word := some w, addr := s.pc } ∧
      t.status = .halted ∧ t.pc = s.pc + 2 ∧ t.inputs = StepInputs.idle ∧
      SameBut [.fault, .pc, .inputs] s t

/-- When the host's next action is a step of a running core and the bytes at `pc` decode to a well-formed
instruction, the step supplies the inputs, advances `pc` by 2, is `exec` of that instruction, and lets the inputs
go. The next action is the head of the host's list, or with an empty list a step with free inputs, and it is taken
off (log entries 6, 7 and 15). -/
def Obligations.StepRunsTheDecodedInstruction : Prop :=
  (∀ (s : State) (key : KeySnapshot) (rand8 : Byte) (i : Instr),
    s.fault = none → s.latch.active = false → s.nextAction = .step key rand8 → s.pc.toNat + 1 < 4096 →
    decode [s.byte s.pc.toNat, s.byte (s.pc.toNat + 1)] = .ok (i, []) → i.wellFormed = true →
    step s = onNext (exec i (s.dropAction.withInputs key rand8).advance) State.endStep) ∧
  (∀ (s : State) (a : HostAction) (rest : List HostAction), s.host = a :: rest →
    s.nextAction = a ∧ s.dropAction.host = rest ∧ SameBut [.host] s s.dropAction) ∧
  (∀ s : State, s.host = [] →
    s.nextAction = .step (Config.freeKeys s.draws) (Config.freeRand8 s.draws) ∧
    s.dropAction.draws = s.draws + 1 ∧ SameBut [.draws] s s.dropAction) ∧
  (∀ s : State, s.advance.pc = s.pc + 2 ∧ SameBut [.pc] s s.advance)

/-- The tick: each timer goes down by 1 unless it is 0, whether the core runs or waits, and nothing else changes.
Rests on the spec's decision D17. -/
def Obligations.TickCountsBothTimersDown : Prop :=
  ∀ s : State, s.fault = none →
    ∃ t, act .tick s = .next t ∧ t.dt.toNat = s.dt.toNat - 1 ∧ t.st.toNat = s.st.toNat - 1 ∧
      SameBut [.dt, .st] s t

/-- The resumption: the key goes to the latch's register, the latch is cleared with its target kept, the core
runs again, and nothing else changes. Rests on the spec's decisions D16 and D27. -/
def Obligations.ResumeDeliversTheKey : Prop :=
  ∀ (s : State) (k : Fin 16), s.status = .waiting →
    ∃ t, act (.resume k) s = .next t ∧ (t.reg s.latch.target).toNat = k ∧
      t.latch.active = false ∧ t.latch.target = s.latch.target ∧ t.status = .running ∧
      SameBut [.reg s.latch.target, .latch] s t

/-- An action that is not enabled does not happen: nothing on a halted core, no step of a waiting core, no
resumption of a running one. That the model stops there under these names is its choice (log entry 8). -/
def Obligations.ActionsNotEnabledStop : Prop :=
  (∀ (s : State) (r : FaultRecord) (a : HostAction), s.fault = some r → act a s = .fault (.halted r)) ∧
  (∀ (s : State) (key : KeySnapshot) (rand8 : Byte), s.status = .waiting →
    act (.step key rand8) s = .fault .stepWhileWaiting) ∧
  (∀ (s : State) (k : Fin 16), s.status = .running → act (.resume k) s = .fault .resumeWhileRunning)

/-- No instruction stops the model: in every state each one answers a next state. Where the instruction is fatal, that
the answer is a next state, a halted one with the fault record in it, is the model's inference (log entry 9, DEDUCED);
what the record and the halted state are rests on the spec's decision D19 (60_exceptions.md section 1). -/
def Obligations.EveryInstructionGoesOn : Prop :=
  ∀ (i : Instr) (s : State), ∃ t, exec i s = .next t

/-- Whatever the host does, a state that meets the invariant is followed by one that does: memory keeps its
canonical form, `pc` stays in 0 to 4350, return addresses stay at most 4096, the stack keeps its limit, no input
is held, and a fault record is precise. -/
def Obligations.StepKeepsTheInvariant : Prop :=
  ∀ s t : State, s.Inv → step s = .next t → t.Inv

/-- The state after reset meets the invariant. -/
def Obligations.ResetMeetsTheInvariant : Prop := State.reset.Inv

/-- A loaded machine meets the invariant, whatever the font and the image. -/
def Obligations.LoadedMachineMeetsTheInvariant : Prop :=
  ∀ (fnt : Vector Byte 80) (image : List Byte) (t : State), load fnt image = .next t → t.Inv

/-- In the execute phase an instruction can raise only its own condition; the record holds its word, its address
and the kind's information, and `pc` stays at A + 2 (60_exceptions.md section 1). -/
def Obligations.InstructionsRaiseOnlyTheirOwnCondition : Prop :=
  ∀ (i : Instr) (s t : State) (r : FaultRecord), s.fault = none → exec i s = .next t → t.fault = some r →
    MayRaise i r.condition s ∧ r.word = some (encode i) ∧ r.addr = s.pc - 2 ∧ t.pc = s.pc

/-! ### Reset and load (20_memory.md, 70_reset_and_hazards.md) -/

/-- R44: the memory map after reset, for any FONT and any image that fits, and the entry point. -/
def Obligations.LoadBuildsTheMemoryMap : Prop :=
  ∀ (fnt : Vector Byte 80) (image : List Byte), 512 + image.length ≤ 4096 →
    ∃ t, load fnt image = .next t ∧
      (∀ a : Fin 80, t.byte a = fnt[a]) ∧
      (∀ a : Nat, 80 ≤ a → a < 512 → t.byte a = 0) ∧
      (∀ k : Fin image.length, t.byte (512 + k) = image[k]) ∧
      (∀ a : Nat, 512 + image.length ≤ a → a < 4096 → t.byte a = 0) ∧
      t.pc.toNat = 512

/-- The rest of the state after reset; loading the default FONT and an empty image gives `State.reset` itself. The
zeros of the registers, I, the timers, the stack and the latch rest on the spec's decision D14; no input, an empty
host list and no draws are the model's choice (log entries 6, 7 and 15). -/
def Obligations.LoadResetsEverythingElse : Prop :=
  (∀ (fnt : Vector Byte 80) (image : List Byte) (t : State), load fnt image = .next t →
    (∀ r, t.reg r = 0) ∧ t.pc = 512 ∧ t.i = 0 ∧ t.dt = 0 ∧ t.st = 0 ∧ t.stack = [] ∧
    (∀ c r, t.pixel c r = false) ∧ t.latch = { active := false, target := 0 } ∧ t.fault = none ∧
    t.status = .running ∧ t.inputs = StepInputs.idle ∧ t.host = [] ∧ t.draws = 0) ∧
  (∀ fnt : Vector Byte 80, fnt.toList = font → load fnt [] = .next State.reset)

/-- An image of more than 3584 bytes is refused with its length, and one of exactly 3584 is accepted. Rests on
the spec's decision D20. -/
def Obligations.OversizedImageIsRefused : Prop :=
  ∀ (fnt : Vector Byte 80) (image : List Byte),
    (3584 < image.length → load fnt image = .refused (.loadImageTooLarge image.length)) ∧
    (image.length ≤ 3584 → ∃ t, load fnt image = .next t)

/-- With an empty image the first step fetches 0x0000 at 512, an IllegalInstruction. -/
def Obligations.EmptyImageEndsAtOnce : Prop :=
  ∀ (fnt : Vector Byte 80) (t : State) (key : KeySnapshot) (rand8 : Byte), load fnt [] = .next t →
    ∃ u, act (.step key rand8) t = .next u ∧
      u.fault = some { condition := .illegalInstruction, word := some 0x0000, addr := 512 } ∧ u.pc = 514

/-- The canonical form makes equal memories equal data: two canonical memories that read the same everywhere are
the same list. The form is the model's choice (log entry 12). -/
def Obligations.CanonicalMemoryIsDeterminedByReads : Prop :=
  ∀ m m' : Memory, m.wf = true → m'.wf = true → (∀ a, readCell m a = readCell m' a) → m = m'

/-! ### Control transfer (40_control.md) -/

/-- R72: `pc` becomes NNN and nothing else changes. -/
def Obligations.JumpSetsPc : Prop :=
  ∀ (nnn : Addr12) (s : State),
    ∃ t, exec (.jp nnn) s = .next t ∧ t.pc.toNat = nnn.toNat ∧ SameBut [.pc] s t

/-- `pc` becomes NNN + x[0], without wrap and without reduction to 12 bits, whatever the register the X nibble
would name. That 16 bits hold it rests on the spec's decision D4. -/
def Obligations.OffsetJumpAddsRegisterZero : Prop :=
  ∀ (nnn : Addr12) (s : State),
    ∃ t, exec (.jpV0 nnn) s = .next t ∧ t.pc.toNat = nnn.toNat + (s.reg 0).toNat ∧ SameBut [.pc] s t

/-- CALL appends the advanced `pc` to the stack and jumps, at any depth under the default STACK_LIMIT; under a
finite limit L it is StackOverflow at depth L and the same call below it. Rests on the spec's decision D15. -/
def Obligations.CallPushesTheReturnAddress : Prop :=
  (∀ (nnn : Addr12) (s : State),
    ∃ t, exec (.call nnn) s = .next t ∧ t.pc.toNat = nnn.toNat ∧ t.stack = s.stack ++ [s.pc] ∧
      SameBut [.pc, .stack] s t) ∧
  (∀ (l : Nat) (nnn : Addr12) (s : State), s.stack.length < l →
    (callUnder (some l) nnn s).pc.toNat = nnn.toNat ∧
    (callUnder (some l) nnn s).stack = s.stack ++ [s.pc] ∧
    SameBut [.pc, .stack] s (callUnder (some l) nnn s)) ∧
  (∀ (l : Nat) (nnn : Addr12) (s : State), l ≤ s.stack.length →
    Raised .stackOverflow (encode (.call nnn)) s (callUnder (some l) nnn s))

/-- RET takes the last entry off the stack into `pc`; on an empty stack it is StackUnderflow with its own word.
The fault record rests on the spec's decision D19. -/
def Obligations.ReturnPopsTheStack : Prop :=
  (∀ (ign : Nibble) (s : State) (a : Word) (rest : List Word), s.stack = rest ++ [a] →
    ∃ t, exec (.ret ign) s = .next t ∧ t.pc = a ∧ t.stack = rest ∧ SameBut [.pc, .stack] s t) ∧
  (∀ (ign : Nibble) (s : State), s.stack = [] →
    ∃ t, exec (.ret ign) s = .next t ∧ Raised .stackUnderflow (encode (.ret ign)) s t)

/-- A CALL and the RET at its target: after the two steps `pc` is the address after the CALL, and but for the
inputs everything is as before. -/
def Obligations.CallThenReturnResumesAfterTheCall : Prop :=
  ∀ (s : State) (nnn : Addr12) (ign : Nibble) (k1 k2 : KeySnapshot) (r1 r2 : Byte),
    s.status = .running → s.fetch = .ok (encode (.call nnn)) →
    (s.setPc (zext16 nnn)).fetch = .ok (encode (.ret ign)) →
    ∃ u t, act (.step k1 r1) s = .next u ∧ act (.step k2 r2) u = .next t ∧
      t.pc = s.pc + 2 ∧ SameBut [.pc, .inputs] s t

/-- R75 to R78: `pc` goes on by 2 more exactly when the comparison holds, and nothing else changes. -/
def Obligations.SkipInstructionsCompare : Prop :=
  ∀ (s : State) (x y : Reg) (nn : Byte) (ign : Nibble),
    (∃ t, exec (.seImm x nn) s = .next t ∧
      t.pc = (if s.reg x = nn then s.pc + 2 else s.pc) ∧ SameBut [.pc] s t) ∧
    (∃ t, exec (.sneImm x nn) s = .next t ∧
      t.pc = (if s.reg x = nn then s.pc else s.pc + 2) ∧ SameBut [.pc] s t) ∧
    (∃ t, exec (.seReg x y ign) s = .next t ∧
      t.pc = (if s.reg x = s.reg y then s.pc + 2 else s.pc) ∧ SameBut [.pc] s t) ∧
    (∃ t, exec (.sneReg x y ign) s = .next t ∧
      t.pc = (if s.reg x = s.reg y then s.pc else s.pc + 2) ∧ SameBut [.pc] s t)

/-- R70: a skip instruction whose condition holds steps to A + 4, and the word after it is not fetched, decoded or
executed: the same step from a state that differs only in the two bytes after the instruction does the same,
whatever stands there. A skip instruction whose condition does not hold leaves A + 2. -/
def Obligations.SkippedWordIsNotExamined : Prop :=
  ∀ (s : State) (i : Instr) (key : KeySnapshot) (rand8 hi lo : Byte),
    s.status = .running → s.fetch = .ok (encode i) →
    (SkipHolds i (s.withInputs key rand8) →
      ∃ t u, act (.step key rand8) s = .next t ∧ t.pc = s.pc + 4 ∧ SameBut [.pc, .inputs] s t ∧
        act (.step key rand8) ((s.setByte (s.pc.toNat + 2) hi).setByte (s.pc.toNat + 3) lo) = .next u ∧
        SameBut [.byte (s.pc.toNat + 2), .byte (s.pc.toNat + 3)] t u) ∧
    (i.mnemonic ∈ ([.seImm, .sneImm, .seReg, .sneReg, .skp, .sknp] : List Mnemonic) →
      ¬ SkipHolds i (s.withInputs key rand8) →
      ∃ t, act (.step key rand8) s = .next t ∧ t.pc = s.pc + 2)

/-- How each instruction leaves `pc` (10_state.md section 2), with A + 2 standing in `s.pc`: the jump and the call at
NNN, RET at the popped entry, Bnnn at NNN + x[0], a skip that holds at A + 4, and every other instruction at A + 2. That
a fatal one leaves A + 2 is `InstructionsRaiseOnlyTheirOwnCondition`. -/
def Obligations.PcAfterEachInstruction : Prop :=
  ∀ (i : Instr) (s t : State), exec i s = .next t → t.fault = s.fault →
    (∀ nnn, i = .jp nnn ∨ i = .call nnn → t.pc.toNat = nnn.toNat) ∧
    (∀ ign a, i = .ret ign → s.stack.getLast? = some a → t.pc = a) ∧
    (∀ nnn, i = .jpV0 nnn → t.pc.toNat = nnn.toNat + (s.reg 0).toNat) ∧
    (i.mnemonic ∉ ([.jp, .call, .ret, .jpV0] : List Mnemonic) →
      (SkipHolds i s → t.pc = s.pc + 2) ∧ (¬ SkipHolds i s → t.pc = s.pc))

/-- A jump to its own address makes a one-instruction loop: the step changes nothing but the inputs. -/
def Obligations.JumpToItselfChangesNothing : Prop :=
  ∀ (s : State) (nnn : Addr12) (key : KeySnapshot) (rand8 : Byte),
    s.status = .running → s.inputs = StepInputs.idle → s.pc.toNat = nnn.toNat →
    s.fetch = .ok (encode (.jp nnn)) →
    act (.step key rand8) s = .next s ∧ s.endOfRun = true

/-! ### Register arithmetic and logic (41_alu.md) -/

/-- R82 and R84: the register receives the byte, or the other register. -/
def Obligations.LoadsSetTheRegister : Prop :=
  ∀ (x y : Reg) (nn : Byte) (s : State),
    (∃ t, exec (.ldImm x nn) s = .next t ∧ t.reg x = nn ∧ SameBut [.reg x] s t) ∧
    (∃ t, exec (.ldReg x y) s = .next t ∧ t.reg x = s.reg y ∧ SameBut [.reg x] s t)

/-- R83: the sum modulo 256, and no flag: VF changes only as the destination. -/
def Obligations.AddImmediateWrapsWithoutFlag : Prop :=
  ∀ (x : Reg) (nn : Byte) (s : State),
    ∃ t, exec (.addImm x nn) s = .next t ∧
      (t.reg x).toNat = ((s.reg x).toNat + nn.toNat) % 256 ∧ SameBut [.reg x] s t

/-- R85 to R87: OR, AND and exclusive or, bit by bit, and no flag. -/
def Obligations.LogicIsBitwise : Prop :=
  ∀ (x y : Reg) (s : State),
    (∃ t, exec (.orReg x y) s = .next t ∧ SameBut [.reg x] s t ∧
      ∀ k : Fin 8, (t.reg x)[k] = ((s.reg x)[k] || (s.reg y)[k])) ∧
    (∃ t, exec (.andReg x y) s = .next t ∧ SameBut [.reg x] s t ∧
      ∀ k : Fin 8, (t.reg x)[k] = ((s.reg x)[k] && (s.reg y)[k])) ∧
    (∃ t, exec (.xorReg x y) s = .next t ∧ SameBut [.reg x] s t ∧
      ∀ k : Fin 8, (t.reg x)[k] = ((s.reg x)[k] != (s.reg y)[k]))

/-- R88, in the frame of R81: the wrapped sum, and VF = 1 iff the sum exceeds 255. -/
def Obligations.AddSetsCarry : Prop :=
  ∀ (x y : Reg) (s : State),
    ∃ t, exec (.addReg x y) s = .next t ∧
      FlagWritten x y (if 255 < (s.reg x).toNat + (s.reg y).toNat then 1 else 0)
        (fun a b => (a + b) % 256) s t

/-- R89, in the frame of R81: the wrapped difference, and VF = 1 iff x[X] > x[Y], strictly. -/
def Obligations.SubtractSetsStrictGreater : Prop :=
  ∀ (x y : Reg) (s : State),
    ∃ t, exec (.subReg x y) s = .next t ∧
      FlagWritten x y (if (s.reg y).toNat < (s.reg x).toNat then 1 else 0)
        (fun a b => (a + 256 - b) % 256) s t

/-- R91, in the frame of R81: the reversed difference, and VF = 1 iff x[Y] > x[X]. -/
def Obligations.ReverseSubtractSetsStrictGreater : Prop :=
  ∀ (x y : Reg) (s : State),
    ∃ t, exec (.subnReg x y) s = .next t ∧
      FlagWritten x y (if (s.reg x).toNat < (s.reg y).toNat then 1 else 0)
        (fun a b => (b + 256 - a) % 256) s t

/-- R90, in the frame of R81: half of x[X], and VF is its old bit 0; x[Y] is neither read nor written. -/
def Obligations.ShiftRightSetsLowBit : Prop :=
  ∀ (x : Reg) (ign : Nibble) (s : State),
    ∃ t, exec (.shr x ign) s = .next t ∧
      FlagWritten x x ((s.reg x).toNat % 2) (fun a _ => a / 2) s t

/-- R92, in the frame of R81: twice x[X] modulo 256, and VF is its old bit 7; x[Y] is neither read nor
written. -/
def Obligations.ShiftLeftSetsHighBit : Prop :=
  ∀ (x : Reg) (ign : Nibble) (s : State),
    ∃ t, exec (.shl x ign) s = .next t ∧
      FlagWritten x x ((s.reg x).toNat / 128) (fun a _ => a * 2 % 256) s t

/-- RND: the random byte of the step masked by N, so at most 15, under the spec's value of RAND_MASK; masked by NN
under the other. Rests on the spec's decisions D10 and D11 (log entry 2). -/
def Obligations.RandomByteIsMasked : Prop :=
  ∀ (x : Reg) (nn : Byte) (s : State),
    (∃ t, exec (.rnd x nn) s = .next t ∧ SameBut [.reg x] s t ∧
      ∀ k : Fin 8, (t.reg x)[k] = (s.rand8[k] && (decide ((k : Nat) < 4) && nn[k]))) ∧
    SameBut [.reg x] s (rndUnder .nn x nn s) ∧
    ∀ k : Fin 8, ((rndUnder .nn x nn s).reg x)[k] = (s.rand8[k] && nn[k])

/-! ### Index register and memory transfer (42_index_memory.md) -/

/-- R95 to R97: I becomes NNN, or I + x[X] modulo 65536, or 5 times x[X]; nothing else changes. -/
def Obligations.IndexInstructionsSetI : Prop :=
  ∀ (x : Reg) (nnn : Addr12) (s : State),
    (∃ t, exec (.ldI nnn) s = .next t ∧ t.i.toNat = nnn.toNat ∧ SameBut [.i] s t) ∧
    (∃ t, exec (.addI x) s = .next t ∧ t.i.toNat = (s.i.toNat + (s.reg x).toNat) % 65536 ∧
      SameBut [.i] s t) ∧
    (∃ t, exec (.ldFont x) s = .next t ∧ t.i.toNat = (s.reg x).toNat * 5 ∧ SameBut [.i] s t)

/-- Fx33 in range stores the three decimal digits of x[X] at I, I + 1 and I + 2, and changes nothing else; out of
range it is MemOutOfRange of the first address past memory and changes nothing. The range check rests on the spec's
decisions D2 and D25. -/
def Obligations.DecimalDigitsAreStored : Prop :=
  (∀ (x : Reg) (s : State), s.i.toNat + 2 < 4096 →
    ∃ t, exec (.ldBcd x) s = .next t ∧
      (t.byte s.i.toNat).toNat * 100 + (t.byte (s.i.toNat + 1)).toNat * 10 +
        (t.byte (s.i.toNat + 2)).toNat = (s.reg x).toNat ∧
      (t.byte (s.i.toNat + 1)).toNat ≤ 9 ∧ (t.byte (s.i.toNat + 2)).toNat ≤ 9 ∧
      SameBut [.byte s.i.toNat, .byte (s.i.toNat + 1), .byte (s.i.toNat + 2)] s t) ∧
  (∀ (x : Reg) (s : State), 4096 ≤ s.i.toNat + 2 →
    ∃ t, exec (.ldBcd x) s = .next t ∧
      Raised (.memOutOfRange (max s.i.toNat 4096)) (encode (.ldBcd x)) s t)

/-- Fx55 in range stores x[0] to x[X] at I to I + X, and changes nothing else, I included; out of range it is
MemOutOfRange and changes nothing. The range check rests on the spec's decisions D2 and D25. -/
def Obligations.RegistersAreStored : Prop :=
  (∀ (x : Reg) (s : State), s.i.toNat + x < 4096 →
    ∃ t, exec (.stRegs x) s = .next t ∧
      (∀ r : Reg, r ≤ x → t.byte (s.i.toNat + r) = s.reg r) ∧
      SameExcept (fun p => ∃ r : Reg, r ≤ x ∧ p = .byte (s.i.toNat + r)) s t) ∧
  (∀ (x : Reg) (s : State), 4096 ≤ s.i.toNat + x →
    ∃ t, exec (.stRegs x) s = .next t ∧
      Raised (.memOutOfRange (max s.i.toNat 4096)) (encode (.stRegs x)) s t)

/-- Fx65 in range loads x[0] to x[X] from I to I + X, and changes nothing else; out of range it is MemOutOfRange and
changes nothing. That I is unchanged rests on the spec's decision D9, the range check on D2 and D25. -/
def Obligations.RegistersAreLoaded : Prop :=
  (∀ (x : Reg) (s : State), s.i.toNat + x < 4096 →
    ∃ t, exec (.ldRegs x) s = .next t ∧
      (∀ r : Reg, r ≤ x → t.reg r = s.byte (s.i.toNat + r)) ∧
      SameExcept (fun p => ∃ r : Reg, r ≤ x ∧ p = .reg r) s t) ∧
  (∀ (x : Reg) (s : State), 4096 ≤ s.i.toNat + x →
    ∃ t, exec (.ldRegs x) s = .next t ∧
      Raised (.memOutOfRange (max s.i.toNat 4096)) (encode (.ldRegs x)) s t)

/-- Storing registers and loading them back, with I and memory as the store left them, restores them whatever
the registers held meanwhile. -/
def Obligations.LoadAfterStoreRestoresRegisters : Prop :=
  ∀ (x : Reg) (s t u : State), s.i.toNat + x < 4096 → exec (.stRegs x) s = .next t →
    u.i = t.i → (∀ a, u.byte a = t.byte a) →
    ∃ v, exec (.ldRegs x) u = .next v ∧ (∀ r : Reg, r ≤ x → v.reg r = s.reg r) ∧
      (∀ r : Reg, x < r → v.reg r = u.reg r)

/-! ### Display (43_display.md) -/

/-- R101: every pixel off, and nothing else changes. -/
def Obligations.ClearTurnsEveryPixelOff : Prop :=
  ∀ (ign : Nibble) (s : State),
    ∃ t, exec (.cls ign) s = .next t ∧ (∀ c r, t.pixel c r = false) ∧
      SameExcept (fun p => ∃ c r, p = .pixel c r) s t

/-- DRW, pixel by pixel: every pixel that an on bit of the sprite lands on is inverted and no other pixel changes;
VF is 1 if one of them was on, else 0; the condition MemOutOfRange is raised exactly when a row is reached whose
byte does not exist, with the rows above it drawn; nothing else changes. The bounds check, the order of the origin
and VF, and which rows are read rest on the spec's decisions D2, D6 and D7. -/
def Obligations.DrawInvertsTheSpritePixels : Prop :=
  ∀ (x y : Reg) (n : Nibble) (s : State),
    ∃ t, exec (.drw x y n) s = .next t ∧
      (∀ c r, t.pixel c r = true ↔ (s.pixel c r = true ↔ ¬ SpriteOn s x y n c r)) ∧
      ((∃ c r, SpriteOn s x y n c r ∧ s.pixel c r = true) → t.reg VF = 1) ∧
      ((¬ ∃ c r, SpriteOn s x y n c r ∧ s.pixel c r = true) → t.reg VF = 0) ∧
      (SpriteReadFaults s y n → t.fault = some
        { condition := .memOutOfRange (max s.i.toNat 4096), word := some (encode (.drw x y n)),
          addr := s.pc - 2 }) ∧
      (¬ SpriteReadFaults s y n → t.fault = s.fault) ∧
      SameExcept (fun p => p = .reg VF ∨ p = .fault ∨ ∃ c r, p = .pixel c r) s t

/-- Drawing the same sprite at the same origin twice restores every pixel; the second draw sets VF to 1 exactly when
some on bit of the sprite lands, in bounds, on a pixel that was off before the first draw. (The property in the
section on pixel combination asks only for an on bit in bounds, which the algorithm does not give when all those
pixels were on before: log entry 24.) With register 15 as a coordinate the first draw would move the origin. -/
def Obligations.DrawingTwiceRestoresTheDisplay : Prop :=
  ∀ (x y : Reg) (n : Nibble) (s t u : State), x ≠ VF → y ≠ VF →
    exec (.drw x y n) s = .next t → exec (.drw x y n) t = .next u →
    (∀ c r, u.pixel c r = s.pixel c r) ∧
    ((∃ c r, SpriteOn s x y n c r ∧ s.pixel c r = false) → u.reg VF = 1) ∧
    ((¬ ∃ c r, SpriteOn s x y n c r ∧ s.pixel c r = false) → u.reg VF = 0)

/-- The sprite is clipped and never wraps: only pixels in the 8 by N box right of and below the origin can change,
and the origin itself is x[X] mod 64, x[Y] mod 32. -/
def Obligations.DrawStaysInsideItsBox : Prop :=
  ∀ (x y : Reg) (n : Nibble) (s t : State) (c : Fin 64) (r : Fin 32),
    exec (.drw x y n) s = .next t → t.pixel c r ≠ s.pixel c r →
    (s.reg x).toNat % 64 ≤ c ∧ (c : Nat) < (s.reg x).toNat % 64 + 8 ∧
    (s.reg y).toNat % 32 ≤ r ∧ (r : Nat) < (s.reg y).toNat % 32 + n.toNat

/-! ### Key input, key wait and timers (44_timers_input.md) -/

/-- SKP and SKNP on a key that exists skip by its entry of the step's snapshot; on a register above 15 they are
KeyIndexOutOfRange and change nothing. The latter rests on the spec's decision D8. -/
def Obligations.KeySkipsReadTheSnapshot : Prop :=
  (∀ (x : Reg) (k : Fin 16) (s : State), (s.reg x).toNat = k →
    (∃ t, exec (.skp x) s = .next t ∧ t.pc = (if s.key k = true then s.pc + 2 else s.pc) ∧
      SameBut [.pc] s t) ∧
    (∃ t, exec (.sknp x) s = .next t ∧ t.pc = (if s.key k = true then s.pc else s.pc + 2) ∧
      SameBut [.pc] s t)) ∧
  (∀ (x : Reg) (s : State), 15 < (s.reg x).toNat →
    (∃ t, exec (.skp x) s = .next t ∧
      Raised (.keyIndexOutOfRange (s.reg x)) (encode (.skp x)) s t) ∧
    (∃ t, exec (.sknp x) s = .next t ∧
      Raised (.keyIndexOutOfRange (s.reg x)) (encode (.sknp x)) s t))

/-- The timer transfers: Fx07 copies DT to x[X], Fx15 x[X] to DT, Fx18 x[X] to ST, and nothing else changes. The
directions rest on the spec's decision D12 (log entry 17). -/
def Obligations.TimerTransfersCopy : Prop :=
  ∀ (x : Reg) (s : State),
    (∃ t, exec (.ldRegDt x) s = .next t ∧ t.reg x = s.dt ∧ SameBut [.reg x] s t) ∧
    (∃ t, exec (.ldDtReg x) s = .next t ∧ t.dt = s.reg x ∧ SameBut [.dt] s t) ∧
    (∃ t, exec (.ldStReg x) s = .next t ∧ t.st = s.reg x ∧ SameBut [.st] s t)

/-- Fx0A sets the latch and its target, reads and writes no register, and leaves a core that has no fault waiting.
Rests on the spec's decision D16. -/
def Obligations.KeyWaitSetsTheLatch : Prop :=
  ∀ (x : Reg) (s : State),
    ∃ t, exec (.ldKey x) s = .next t ∧ t.latch = { active := true, target := x } ∧
      (s.fault = none → t.status = .waiting) ∧ SameBut [.latch] s t

/-- A whole key wait: the step of Fx0A, then a tick, then the resumption. In between no step is possible;
afterwards the core runs on at A + 2 with the key in its register, and nothing else has changed but the timers.
Rests on the spec's decisions D16, D17 and D27. -/
def Obligations.KeyWaitRunsToItsResumption : Prop :=
  ∀ (s : State) (x : Reg) (k : Fin 16) (key key' : KeySnapshot) (rand8 rand8' : Byte),
    s.status = .running → s.fetch = .ok (encode (.ldKey x)) →
    ∃ u v t, act (.step key rand8) s = .next u ∧ u.status = .waiting ∧
      act (.step key' rand8') u = .fault .stepWhileWaiting ∧
      act .tick u = .next v ∧ act (.resume k) v = .next t ∧
      t.status = .running ∧ (t.reg x).toNat = k ∧ t.pc = s.pc + 2 ∧
      t.dt.toNat = s.dt.toNat - 1 ∧ t.st.toNat = s.st.toNat - 1 ∧
      SameBut [.reg x, .pc, .dt, .st, .latch, .inputs] s t

/-! ### Rules about the whole machine (10_state.md) -/

/-- Each part of the state is written only by the instructions that the state's rules name: I, the timers, the
stack, the display, the latch, memory, the fault record. That Fx65 never writes I is the spec's decision D9 (log entry
19); that DT is written by Fx15 and ST by Fx18 is its decision D12 (log entry 17, PRESUMED); the conditions behind the
fault record rest on D2, D8, D15 and D19. That no instruction writes the inputs, the host's list or the draws is about
the model's own fields (log entries 15, 7 and 6), not a rule of the spec. -/
def Obligations.EachPartIsWrittenOnlyByItsInstructions : Prop :=
  ∀ (i : Instr) (s t : State), exec i s = .next t →
    (t.i ≠ s.i → i.mnemonic ∈ ([.ldI, .addI, .ldFont] : List Mnemonic)) ∧
    (t.dt ≠ s.dt → i.mnemonic = .ldDtReg) ∧
    (t.st ≠ s.st → i.mnemonic = .ldStReg) ∧
    (t.stack ≠ s.stack → i.mnemonic ∈ ([.call, .ret] : List Mnemonic)) ∧
    (∀ c r, t.pixel c r ≠ s.pixel c r → i.mnemonic ∈ ([.cls, .drw] : List Mnemonic)) ∧
    (t.latch ≠ s.latch → i.mnemonic = .ldKey) ∧
    (∀ a, t.byte a ≠ s.byte a → i.mnemonic ∈ ([.ldBcd, .stRegs] : List Mnemonic)) ∧
    (t.fault ≠ s.fault → i.mnemonic ∈
      ([.ret, .call, .drw, .skp, .sknp, .ldBcd, .stRegs, .ldRegs] : List Mnemonic)) ∧
    t.inputs = s.inputs ∧ t.host = s.host ∧ t.draws = s.draws

/-- A general register is written only by the instructions that name it as their destination, by Fx65 up to X, and
register 15 also by the flag-writing operations and DRW; 7xnn, the logical operations and the others leave VF alone
unless it is their destination (sections 1 on the general registers). That Fx07 is the transfer that writes a register,
and Fx15 and Fx18 write none, is the spec's decision D12 (log entry 17, PRESUMED). -/
def Obligations.RegistersAreWrittenOnlyAsListed : Prop :=
  ∀ (i : Instr) (s t : State) (r : Reg), exec i s = .next t → t.reg r ≠ s.reg r → WritesReg i r

/-- No instruction reads the sound timer, the latch or the fault record: whatever they hold, the instruction does the
same to every other part. That none reads ST rests on the direction of the timer transfers, the spec's decision D12,
taken from general knowledge (log entry 17, PRESUMED, unsafe). -/
def Obligations.StatusStateIsNeverRead : Prop :=
  ∀ (i : Instr) (s t : State) (v : Byte) (l : Latch) (f : Option FaultRecord), exec i s = .next t →
    ∃ u, exec i { s with st := v, latch := l, fault := f } = .next u ∧
      SameBut [.st, .latch, .fault] t u

/-- Only Ex9E and ExA1 read the key snapshot and only Cxnn the random byte: for any other instruction the inputs
make no difference. -/
def Obligations.InputsAreReadOnlyByTheirInstructions : Prop :=
  ∀ (i : Instr) (s t : State) (key : KeySnapshot) (rand8 : Byte), exec i s = .next t →
    (i.mnemonic ∈ ([.skp, .sknp] : List Mnemonic) → key = s.inputs.key) →
    (i.mnemonic = .rnd → rand8 = s.inputs.rand8) →
    exec i (s.withInputs key rand8) = .next (t.withInputs key rand8)
end

