-- ==== Sys2Proof/Laws/State.lean ====
section
/-! SUPPORT. One lemma per part of the state and per named update, so that no proof unfolds a record update. -/

namespace Sys2Proof.Machine

/-- The size of memory as a number (R39). -/
@[simp] theorem memSize_eq : Config.memSize = 4096 := rfl

variable (s : State)

/-! ### `setReg` -/

@[simp] theorem State.mem_setReg (r : Reg) (v : Byte) : (s.setReg r v).mem = s.mem := rfl
@[simp] theorem State.i_setReg (r : Reg) (v : Byte) : (s.setReg r v).i = s.i := rfl
@[simp] theorem State.pc_setReg (r : Reg) (v : Byte) : (s.setReg r v).pc = s.pc := rfl
@[simp] theorem State.dt_setReg (r : Reg) (v : Byte) : (s.setReg r v).dt = s.dt := rfl
@[simp] theorem State.st_setReg (r : Reg) (v : Byte) : (s.setReg r v).st = s.st := rfl
@[simp] theorem State.stack_setReg (r : Reg) (v : Byte) : (s.setReg r v).stack = s.stack := rfl
@[simp] theorem State.disp_setReg (r : Reg) (v : Byte) : (s.setReg r v).disp = s.disp := rfl
@[simp] theorem State.latch_setReg (r : Reg) (v : Byte) : (s.setReg r v).latch = s.latch := rfl
@[simp] theorem State.fault_setReg (r : Reg) (v : Byte) : (s.setReg r v).fault = s.fault := rfl
@[simp] theorem State.inputs_setReg (r : Reg) (v : Byte) : (s.setReg r v).inputs = s.inputs := rfl
@[simp] theorem State.host_setReg (r : Reg) (v : Byte) : (s.setReg r v).host = s.host := rfl
@[simp] theorem State.draws_setReg (r : Reg) (v : Byte) : (s.setReg r v).draws = s.draws := rfl
@[simp] theorem State.byte_setReg (r : Reg) (v : Byte) (b : Nat) : (s.setReg r v).byte b = s.byte b := rfl
@[simp] theorem State.pixel_setReg (r : Reg) (v : Byte) (c' : Fin 64) (r' : Fin 32) : (s.setReg r v).pixel c' r' = s.pixel c' r' := rfl

/-! ### `setI` -/

@[simp] theorem State.mem_setI (v : Word) : (s.setI v).mem = s.mem := rfl
@[simp] theorem State.x_setI (v : Word) : (s.setI v).x = s.x := rfl
@[simp] theorem State.i_setI (v : Word) : (s.setI v).i = v := rfl
@[simp] theorem State.pc_setI (v : Word) : (s.setI v).pc = s.pc := rfl
@[simp] theorem State.dt_setI (v : Word) : (s.setI v).dt = s.dt := rfl
@[simp] theorem State.st_setI (v : Word) : (s.setI v).st = s.st := rfl
@[simp] theorem State.stack_setI (v : Word) : (s.setI v).stack = s.stack := rfl
@[simp] theorem State.disp_setI (v : Word) : (s.setI v).disp = s.disp := rfl
@[simp] theorem State.latch_setI (v : Word) : (s.setI v).latch = s.latch := rfl
@[simp] theorem State.fault_setI (v : Word) : (s.setI v).fault = s.fault := rfl
@[simp] theorem State.inputs_setI (v : Word) : (s.setI v).inputs = s.inputs := rfl
@[simp] theorem State.host_setI (v : Word) : (s.setI v).host = s.host := rfl
@[simp] theorem State.draws_setI (v : Word) : (s.setI v).draws = s.draws := rfl
@[simp] theorem State.reg_setI (v : Word) (g : Reg) : (s.setI v).reg g = s.reg g := rfl
@[simp] theorem State.byte_setI (v : Word) (b : Nat) : (s.setI v).byte b = s.byte b := rfl
@[simp] theorem State.pixel_setI (v : Word) (c' : Fin 64) (r' : Fin 32) : (s.setI v).pixel c' r' = s.pixel c' r' := rfl

/-! ### `setDt` -/

@[simp] theorem State.mem_setDt (v : Byte) : (s.setDt v).mem = s.mem := rfl
@[simp] theorem State.x_setDt (v : Byte) : (s.setDt v).x = s.x := rfl
@[simp] theorem State.i_setDt (v : Byte) : (s.setDt v).i = s.i := rfl
@[simp] theorem State.pc_setDt (v : Byte) : (s.setDt v).pc = s.pc := rfl
@[simp] theorem State.dt_setDt (v : Byte) : (s.setDt v).dt = v := rfl
@[simp] theorem State.st_setDt (v : Byte) : (s.setDt v).st = s.st := rfl
@[simp] theorem State.stack_setDt (v : Byte) : (s.setDt v).stack = s.stack := rfl
@[simp] theorem State.disp_setDt (v : Byte) : (s.setDt v).disp = s.disp := rfl
@[simp] theorem State.latch_setDt (v : Byte) : (s.setDt v).latch = s.latch := rfl
@[simp] theorem State.fault_setDt (v : Byte) : (s.setDt v).fault = s.fault := rfl
@[simp] theorem State.inputs_setDt (v : Byte) : (s.setDt v).inputs = s.inputs := rfl
@[simp] theorem State.host_setDt (v : Byte) : (s.setDt v).host = s.host := rfl
@[simp] theorem State.draws_setDt (v : Byte) : (s.setDt v).draws = s.draws := rfl
@[simp] theorem State.reg_setDt (v : Byte) (g : Reg) : (s.setDt v).reg g = s.reg g := rfl
@[simp] theorem State.byte_setDt (v : Byte) (b : Nat) : (s.setDt v).byte b = s.byte b := rfl
@[simp] theorem State.pixel_setDt (v : Byte) (c' : Fin 64) (r' : Fin 32) : (s.setDt v).pixel c' r' = s.pixel c' r' := rfl

/-! ### `setSt` -/

@[simp] theorem State.mem_setSt (v : Byte) : (s.setSt v).mem = s.mem := rfl
@[simp] theorem State.x_setSt (v : Byte) : (s.setSt v).x = s.x := rfl
@[simp] theorem State.i_setSt (v : Byte) : (s.setSt v).i = s.i := rfl
@[simp] theorem State.pc_setSt (v : Byte) : (s.setSt v).pc = s.pc := rfl
@[simp] theorem State.dt_setSt (v : Byte) : (s.setSt v).dt = s.dt := rfl
@[simp] theorem State.st_setSt (v : Byte) : (s.setSt v).st = v := rfl
@[simp] theorem State.stack_setSt (v : Byte) : (s.setSt v).stack = s.stack := rfl
@[simp] theorem State.disp_setSt (v : Byte) : (s.setSt v).disp = s.disp := rfl
@[simp] theorem State.latch_setSt (v : Byte) : (s.setSt v).latch = s.latch := rfl
@[simp] theorem State.fault_setSt (v : Byte) : (s.setSt v).fault = s.fault := rfl
@[simp] theorem State.inputs_setSt (v : Byte) : (s.setSt v).inputs = s.inputs := rfl
@[simp] theorem State.host_setSt (v : Byte) : (s.setSt v).host = s.host := rfl
@[simp] theorem State.draws_setSt (v : Byte) : (s.setSt v).draws = s.draws := rfl
@[simp] theorem State.reg_setSt (v : Byte) (g : Reg) : (s.setSt v).reg g = s.reg g := rfl
@[simp] theorem State.byte_setSt (v : Byte) (b : Nat) : (s.setSt v).byte b = s.byte b := rfl
@[simp] theorem State.pixel_setSt (v : Byte) (c' : Fin 64) (r' : Fin 32) : (s.setSt v).pixel c' r' = s.pixel c' r' := rfl

/-! ### `enterWait` -/

@[simp] theorem State.mem_enterWait (r : Reg) : (s.enterWait r).mem = s.mem := rfl
@[simp] theorem State.x_enterWait (r : Reg) : (s.enterWait r).x = s.x := rfl
@[simp] theorem State.i_enterWait (r : Reg) : (s.enterWait r).i = s.i := rfl
@[simp] theorem State.pc_enterWait (r : Reg) : (s.enterWait r).pc = s.pc := rfl
@[simp] theorem State.dt_enterWait (r : Reg) : (s.enterWait r).dt = s.dt := rfl
@[simp] theorem State.st_enterWait (r : Reg) : (s.enterWait r).st = s.st := rfl
@[simp] theorem State.stack_enterWait (r : Reg) : (s.enterWait r).stack = s.stack := rfl
@[simp] theorem State.disp_enterWait (r : Reg) : (s.enterWait r).disp = s.disp := rfl
@[simp] theorem State.latch_enterWait (r : Reg) : (s.enterWait r).latch = { active := true, target := r } := rfl
@[simp] theorem State.fault_enterWait (r : Reg) : (s.enterWait r).fault = s.fault := rfl
@[simp] theorem State.inputs_enterWait (r : Reg) : (s.enterWait r).inputs = s.inputs := rfl
@[simp] theorem State.host_enterWait (r : Reg) : (s.enterWait r).host = s.host := rfl
@[simp] theorem State.draws_enterWait (r : Reg) : (s.enterWait r).draws = s.draws := rfl
@[simp] theorem State.reg_enterWait (r : Reg) (g : Reg) : (s.enterWait r).reg g = s.reg g := rfl
@[simp] theorem State.byte_enterWait (r : Reg) (b : Nat) : (s.enterWait r).byte b = s.byte b := rfl
@[simp] theorem State.pixel_enterWait (r : Reg) (c' : Fin 64) (r' : Fin 32) : (s.enterWait r).pixel c' r' = s.pixel c' r' := rfl

/-! ### `setPc` -/

@[simp] theorem State.mem_setPc (v : Word) : (s.setPc v).mem = s.mem := rfl
@[simp] theorem State.x_setPc (v : Word) : (s.setPc v).x = s.x := rfl
@[simp] theorem State.i_setPc (v : Word) : (s.setPc v).i = s.i := rfl
@[simp] theorem State.pc_setPc (v : Word) : (s.setPc v).pc = v := rfl
@[simp] theorem State.dt_setPc (v : Word) : (s.setPc v).dt = s.dt := rfl
@[simp] theorem State.st_setPc (v : Word) : (s.setPc v).st = s.st := rfl
@[simp] theorem State.stack_setPc (v : Word) : (s.setPc v).stack = s.stack := rfl
@[simp] theorem State.disp_setPc (v : Word) : (s.setPc v).disp = s.disp := rfl
@[simp] theorem State.latch_setPc (v : Word) : (s.setPc v).latch = s.latch := rfl
@[simp] theorem State.fault_setPc (v : Word) : (s.setPc v).fault = s.fault := rfl
@[simp] theorem State.inputs_setPc (v : Word) : (s.setPc v).inputs = s.inputs := rfl
@[simp] theorem State.host_setPc (v : Word) : (s.setPc v).host = s.host := rfl
@[simp] theorem State.draws_setPc (v : Word) : (s.setPc v).draws = s.draws := rfl
@[simp] theorem State.reg_setPc (v : Word) (g : Reg) : (s.setPc v).reg g = s.reg g := rfl
@[simp] theorem State.byte_setPc (v : Word) (b : Nat) : (s.setPc v).byte b = s.byte b := rfl
@[simp] theorem State.pixel_setPc (v : Word) (c' : Fin 64) (r' : Fin 32) : (s.setPc v).pixel c' r' = s.pixel c' r' := rfl

/-! ### `advance` -/

@[simp] theorem State.mem_advance : (s.advance).mem = s.mem := rfl
@[simp] theorem State.x_advance : (s.advance).x = s.x := rfl
@[simp] theorem State.i_advance : (s.advance).i = s.i := rfl
@[simp] theorem State.pc_advance : (s.advance).pc = s.pc + 2 := rfl
@[simp] theorem State.dt_advance : (s.advance).dt = s.dt := rfl
@[simp] theorem State.st_advance : (s.advance).st = s.st := rfl
@[simp] theorem State.stack_advance : (s.advance).stack = s.stack := rfl
@[simp] theorem State.disp_advance : (s.advance).disp = s.disp := rfl
@[simp] theorem State.latch_advance : (s.advance).latch = s.latch := rfl
@[simp] theorem State.fault_advance : (s.advance).fault = s.fault := rfl
@[simp] theorem State.inputs_advance : (s.advance).inputs = s.inputs := rfl
@[simp] theorem State.host_advance : (s.advance).host = s.host := rfl
@[simp] theorem State.draws_advance : (s.advance).draws = s.draws := rfl
@[simp] theorem State.reg_advance (g : Reg) : (s.advance).reg g = s.reg g := rfl
@[simp] theorem State.byte_advance (b : Nat) : (s.advance).byte b = s.byte b := rfl
@[simp] theorem State.pixel_advance (c' : Fin 64) (r' : Fin 32) : (s.advance).pixel c' r' = s.pixel c' r' := rfl

/-! ### `push` -/

@[simp] theorem State.mem_push (v : Word) : (s.push v).mem = s.mem := rfl
@[simp] theorem State.x_push (v : Word) : (s.push v).x = s.x := rfl
@[simp] theorem State.i_push (v : Word) : (s.push v).i = s.i := rfl
@[simp] theorem State.pc_push (v : Word) : (s.push v).pc = s.pc := rfl
@[simp] theorem State.dt_push (v : Word) : (s.push v).dt = s.dt := rfl
@[simp] theorem State.st_push (v : Word) : (s.push v).st = s.st := rfl
@[simp] theorem State.stack_push (v : Word) : (s.push v).stack = s.stack ++ [v] := rfl
@[simp] theorem State.disp_push (v : Word) : (s.push v).disp = s.disp := rfl
@[simp] theorem State.latch_push (v : Word) : (s.push v).latch = s.latch := rfl
@[simp] theorem State.fault_push (v : Word) : (s.push v).fault = s.fault := rfl
@[simp] theorem State.inputs_push (v : Word) : (s.push v).inputs = s.inputs := rfl
@[simp] theorem State.host_push (v : Word) : (s.push v).host = s.host := rfl
@[simp] theorem State.draws_push (v : Word) : (s.push v).draws = s.draws := rfl
@[simp] theorem State.reg_push (v : Word) (g : Reg) : (s.push v).reg g = s.reg g := rfl
@[simp] theorem State.byte_push (v : Word) (b : Nat) : (s.push v).byte b = s.byte b := rfl
@[simp] theorem State.pixel_push (v : Word) (c' : Fin 64) (r' : Fin 32) : (s.push v).pixel c' r' = s.pixel c' r' := rfl

/-! ### `setByte` -/

@[simp] theorem State.x_setByte (a : Nat) (v : Byte) : (s.setByte a v).x = s.x := rfl
@[simp] theorem State.i_setByte (a : Nat) (v : Byte) : (s.setByte a v).i = s.i := rfl
@[simp] theorem State.pc_setByte (a : Nat) (v : Byte) : (s.setByte a v).pc = s.pc := rfl
@[simp] theorem State.dt_setByte (a : Nat) (v : Byte) : (s.setByte a v).dt = s.dt := rfl
@[simp] theorem State.st_setByte (a : Nat) (v : Byte) : (s.setByte a v).st = s.st := rfl
@[simp] theorem State.stack_setByte (a : Nat) (v : Byte) : (s.setByte a v).stack = s.stack := rfl
@[simp] theorem State.disp_setByte (a : Nat) (v : Byte) : (s.setByte a v).disp = s.disp := rfl
@[simp] theorem State.latch_setByte (a : Nat) (v : Byte) : (s.setByte a v).latch = s.latch := rfl
@[simp] theorem State.fault_setByte (a : Nat) (v : Byte) : (s.setByte a v).fault = s.fault := rfl
@[simp] theorem State.inputs_setByte (a : Nat) (v : Byte) : (s.setByte a v).inputs = s.inputs := rfl
@[simp] theorem State.host_setByte (a : Nat) (v : Byte) : (s.setByte a v).host = s.host := rfl
@[simp] theorem State.draws_setByte (a : Nat) (v : Byte) : (s.setByte a v).draws = s.draws := rfl
@[simp] theorem State.reg_setByte (a : Nat) (v : Byte) (g : Reg) : (s.setByte a v).reg g = s.reg g := rfl
@[simp] theorem State.pixel_setByte (a : Nat) (v : Byte) (c' : Fin 64) (r' : Fin 32) : (s.setByte a v).pixel c' r' = s.pixel c' r' := rfl

/-! ### `setPixel` -/

@[simp] theorem State.mem_setPixel (p : Fin 64) (q : Fin 32) (v : Bool) : (s.setPixel p q v).mem = s.mem := rfl
@[simp] theorem State.x_setPixel (p : Fin 64) (q : Fin 32) (v : Bool) : (s.setPixel p q v).x = s.x := rfl
@[simp] theorem State.i_setPixel (p : Fin 64) (q : Fin 32) (v : Bool) : (s.setPixel p q v).i = s.i := rfl
@[simp] theorem State.pc_setPixel (p : Fin 64) (q : Fin 32) (v : Bool) : (s.setPixel p q v).pc = s.pc := rfl
@[simp] theorem State.dt_setPixel (p : Fin 64) (q : Fin 32) (v : Bool) : (s.setPixel p q v).dt = s.dt := rfl
@[simp] theorem State.st_setPixel (p : Fin 64) (q : Fin 32) (v : Bool) : (s.setPixel p q v).st = s.st := rfl
@[simp] theorem State.stack_setPixel (p : Fin 64) (q : Fin 32) (v : Bool) : (s.setPixel p q v).stack = s.stack := rfl
@[simp] theorem State.latch_setPixel (p : Fin 64) (q : Fin 32) (v : Bool) : (s.setPixel p q v).latch = s.latch := rfl
@[simp] theorem State.fault_setPixel (p : Fin 64) (q : Fin 32) (v : Bool) : (s.setPixel p q v).fault = s.fault := rfl
@[simp] theorem State.inputs_setPixel (p : Fin 64) (q : Fin 32) (v : Bool) : (s.setPixel p q v).inputs = s.inputs := rfl
@[simp] theorem State.host_setPixel (p : Fin 64) (q : Fin 32) (v : Bool) : (s.setPixel p q v).host = s.host := rfl
@[simp] theorem State.draws_setPixel (p : Fin 64) (q : Fin 32) (v : Bool) : (s.setPixel p q v).draws = s.draws := rfl
@[simp] theorem State.reg_setPixel (p : Fin 64) (q : Fin 32) (v : Bool) (g : Reg) : (s.setPixel p q v).reg g = s.reg g := rfl
@[simp] theorem State.byte_setPixel (p : Fin 64) (q : Fin 32) (v : Bool) (b : Nat) : (s.setPixel p q v).byte b = s.byte b := rfl

/-! ### `clearDisp` -/

@[simp] theorem State.mem_clearDisp : (s.clearDisp).mem = s.mem := rfl
@[simp] theorem State.x_clearDisp : (s.clearDisp).x = s.x := rfl
@[simp] theorem State.i_clearDisp : (s.clearDisp).i = s.i := rfl
@[simp] theorem State.pc_clearDisp : (s.clearDisp).pc = s.pc := rfl
@[simp] theorem State.dt_clearDisp : (s.clearDisp).dt = s.dt := rfl
@[simp] theorem State.st_clearDisp : (s.clearDisp).st = s.st := rfl
@[simp] theorem State.stack_clearDisp : (s.clearDisp).stack = s.stack := rfl
@[simp] theorem State.latch_clearDisp : (s.clearDisp).latch = s.latch := rfl
@[simp] theorem State.fault_clearDisp : (s.clearDisp).fault = s.fault := rfl
@[simp] theorem State.inputs_clearDisp : (s.clearDisp).inputs = s.inputs := rfl
@[simp] theorem State.host_clearDisp : (s.clearDisp).host = s.host := rfl
@[simp] theorem State.draws_clearDisp : (s.clearDisp).draws = s.draws := rfl
@[simp] theorem State.reg_clearDisp (g : Reg) : (s.clearDisp).reg g = s.reg g := rfl
@[simp] theorem State.byte_clearDisp (b : Nat) : (s.clearDisp).byte b = s.byte b := rfl

/-! ### `recordFault` -/

@[simp] theorem State.mem_recordFault (c : FatalCondition) (w : Option Word) (v : Word) : (s.recordFault c w v).mem = s.mem := rfl
@[simp] theorem State.x_recordFault (c : FatalCondition) (w : Option Word) (v : Word) : (s.recordFault c w v).x = s.x := rfl
@[simp] theorem State.i_recordFault (c : FatalCondition) (w : Option Word) (v : Word) : (s.recordFault c w v).i = s.i := rfl
@[simp] theorem State.pc_recordFault (c : FatalCondition) (w : Option Word) (v : Word) : (s.recordFault c w v).pc = s.pc := rfl
@[simp] theorem State.dt_recordFault (c : FatalCondition) (w : Option Word) (v : Word) : (s.recordFault c w v).dt = s.dt := rfl
@[simp] theorem State.st_recordFault (c : FatalCondition) (w : Option Word) (v : Word) : (s.recordFault c w v).st = s.st := rfl
@[simp] theorem State.stack_recordFault (c : FatalCondition) (w : Option Word) (v : Word) : (s.recordFault c w v).stack = s.stack := rfl
@[simp] theorem State.disp_recordFault (c : FatalCondition) (w : Option Word) (v : Word) : (s.recordFault c w v).disp = s.disp := rfl
@[simp] theorem State.latch_recordFault (c : FatalCondition) (w : Option Word) (v : Word) : (s.recordFault c w v).latch = s.latch := rfl
@[simp] theorem State.fault_recordFault (c : FatalCondition) (w : Option Word) (v : Word) : (s.recordFault c w v).fault = some { condition := c, word := w, addr := v } := rfl
@[simp] theorem State.inputs_recordFault (c : FatalCondition) (w : Option Word) (v : Word) : (s.recordFault c w v).inputs = s.inputs := rfl
@[simp] theorem State.host_recordFault (c : FatalCondition) (w : Option Word) (v : Word) : (s.recordFault c w v).host = s.host := rfl
@[simp] theorem State.draws_recordFault (c : FatalCondition) (w : Option Word) (v : Word) : (s.recordFault c w v).draws = s.draws := rfl
@[simp] theorem State.reg_recordFault (c : FatalCondition) (w : Option Word) (v : Word) (g : Reg) : (s.recordFault c w v).reg g = s.reg g := rfl
@[simp] theorem State.byte_recordFault (c : FatalCondition) (w : Option Word) (v : Word) (b : Nat) : (s.recordFault c w v).byte b = s.byte b := rfl
@[simp] theorem State.pixel_recordFault (c : FatalCondition) (w : Option Word) (v : Word) (c' : Fin 64) (r' : Fin 32) : (s.recordFault c w v).pixel c' r' = s.pixel c' r' := rfl

/-! ### `raise` -/

@[simp] theorem State.mem_raise (c : FatalCondition) (w : Word) : (s.raise c w).mem = s.mem := rfl
@[simp] theorem State.x_raise (c : FatalCondition) (w : Word) : (s.raise c w).x = s.x := rfl
@[simp] theorem State.i_raise (c : FatalCondition) (w : Word) : (s.raise c w).i = s.i := rfl
@[simp] theorem State.pc_raise (c : FatalCondition) (w : Word) : (s.raise c w).pc = s.pc := rfl
@[simp] theorem State.dt_raise (c : FatalCondition) (w : Word) : (s.raise c w).dt = s.dt := rfl
@[simp] theorem State.st_raise (c : FatalCondition) (w : Word) : (s.raise c w).st = s.st := rfl
@[simp] theorem State.stack_raise (c : FatalCondition) (w : Word) : (s.raise c w).stack = s.stack := rfl
@[simp] theorem State.disp_raise (c : FatalCondition) (w : Word) : (s.raise c w).disp = s.disp := rfl
@[simp] theorem State.latch_raise (c : FatalCondition) (w : Word) : (s.raise c w).latch = s.latch := rfl
@[simp] theorem State.fault_raise (c : FatalCondition) (w : Word) : (s.raise c w).fault = some { condition := c, word := some w, addr := s.pc - 2 } := rfl
@[simp] theorem State.inputs_raise (c : FatalCondition) (w : Word) : (s.raise c w).inputs = s.inputs := rfl
@[simp] theorem State.host_raise (c : FatalCondition) (w : Word) : (s.raise c w).host = s.host := rfl
@[simp] theorem State.draws_raise (c : FatalCondition) (w : Word) : (s.raise c w).draws = s.draws := rfl
@[simp] theorem State.reg_raise (c : FatalCondition) (w : Word) (g : Reg) : (s.raise c w).reg g = s.reg g := rfl
@[simp] theorem State.byte_raise (c : FatalCondition) (w : Word) (b : Nat) : (s.raise c w).byte b = s.byte b := rfl
@[simp] theorem State.pixel_raise (c : FatalCondition) (w : Word) (c' : Fin 64) (r' : Fin 32) : (s.raise c w).pixel c' r' = s.pixel c' r' := rfl

/-! ### `raiseFetch` -/

@[simp] theorem State.mem_raiseFetch (c : FatalCondition) : (s.raiseFetch c).mem = s.mem := rfl
@[simp] theorem State.x_raiseFetch (c : FatalCondition) : (s.raiseFetch c).x = s.x := rfl
@[simp] theorem State.i_raiseFetch (c : FatalCondition) : (s.raiseFetch c).i = s.i := rfl
@[simp] theorem State.pc_raiseFetch (c : FatalCondition) : (s.raiseFetch c).pc = s.pc := rfl
@[simp] theorem State.dt_raiseFetch (c : FatalCondition) : (s.raiseFetch c).dt = s.dt := rfl
@[simp] theorem State.st_raiseFetch (c : FatalCondition) : (s.raiseFetch c).st = s.st := rfl
@[simp] theorem State.stack_raiseFetch (c : FatalCondition) : (s.raiseFetch c).stack = s.stack := rfl
@[simp] theorem State.disp_raiseFetch (c : FatalCondition) : (s.raiseFetch c).disp = s.disp := rfl
@[simp] theorem State.latch_raiseFetch (c : FatalCondition) : (s.raiseFetch c).latch = s.latch := rfl
@[simp] theorem State.fault_raiseFetch (c : FatalCondition) : (s.raiseFetch c).fault = some { condition := c, word := none, addr := s.pc } := rfl
@[simp] theorem State.inputs_raiseFetch (c : FatalCondition) : (s.raiseFetch c).inputs = s.inputs := rfl
@[simp] theorem State.host_raiseFetch (c : FatalCondition) : (s.raiseFetch c).host = s.host := rfl
@[simp] theorem State.draws_raiseFetch (c : FatalCondition) : (s.raiseFetch c).draws = s.draws := rfl
@[simp] theorem State.reg_raiseFetch (c : FatalCondition) (g : Reg) : (s.raiseFetch c).reg g = s.reg g := rfl
@[simp] theorem State.byte_raiseFetch (c : FatalCondition) (b : Nat) : (s.raiseFetch c).byte b = s.byte b := rfl
@[simp] theorem State.pixel_raiseFetch (c : FatalCondition) (c' : Fin 64) (r' : Fin 32) : (s.raiseFetch c).pixel c' r' = s.pixel c' r' := rfl

/-! ### `withInputs` -/

@[simp] theorem State.mem_withInputs (k : KeySnapshot) (v : Byte) : (s.withInputs k v).mem = s.mem := rfl
@[simp] theorem State.x_withInputs (k : KeySnapshot) (v : Byte) : (s.withInputs k v).x = s.x := rfl
@[simp] theorem State.i_withInputs (k : KeySnapshot) (v : Byte) : (s.withInputs k v).i = s.i := rfl
@[simp] theorem State.pc_withInputs (k : KeySnapshot) (v : Byte) : (s.withInputs k v).pc = s.pc := rfl
@[simp] theorem State.dt_withInputs (k : KeySnapshot) (v : Byte) : (s.withInputs k v).dt = s.dt := rfl
@[simp] theorem State.st_withInputs (k : KeySnapshot) (v : Byte) : (s.withInputs k v).st = s.st := rfl
@[simp] theorem State.stack_withInputs (k : KeySnapshot) (v : Byte) : (s.withInputs k v).stack = s.stack := rfl
@[simp] theorem State.disp_withInputs (k : KeySnapshot) (v : Byte) : (s.withInputs k v).disp = s.disp := rfl
@[simp] theorem State.latch_withInputs (k : KeySnapshot) (v : Byte) : (s.withInputs k v).latch = s.latch := rfl
@[simp] theorem State.fault_withInputs (k : KeySnapshot) (v : Byte) : (s.withInputs k v).fault = s.fault := rfl
@[simp] theorem State.inputs_withInputs (k : KeySnapshot) (v : Byte) : (s.withInputs k v).inputs = { key := k, rand8 := v } := rfl
@[simp] theorem State.host_withInputs (k : KeySnapshot) (v : Byte) : (s.withInputs k v).host = s.host := rfl
@[simp] theorem State.draws_withInputs (k : KeySnapshot) (v : Byte) : (s.withInputs k v).draws = s.draws := rfl
@[simp] theorem State.reg_withInputs (k : KeySnapshot) (v : Byte) (g : Reg) : (s.withInputs k v).reg g = s.reg g := rfl
@[simp] theorem State.byte_withInputs (k : KeySnapshot) (v : Byte) (b : Nat) : (s.withInputs k v).byte b = s.byte b := rfl
@[simp] theorem State.pixel_withInputs (k : KeySnapshot) (v : Byte) (c' : Fin 64) (r' : Fin 32) : (s.withInputs k v).pixel c' r' = s.pixel c' r' := rfl

/-! ### `endStep` -/

@[simp] theorem State.mem_endStep : (s.endStep).mem = s.mem := rfl
@[simp] theorem State.x_endStep : (s.endStep).x = s.x := rfl
@[simp] theorem State.i_endStep : (s.endStep).i = s.i := rfl
@[simp] theorem State.pc_endStep : (s.endStep).pc = s.pc := rfl
@[simp] theorem State.dt_endStep : (s.endStep).dt = s.dt := rfl
@[simp] theorem State.st_endStep : (s.endStep).st = s.st := rfl
@[simp] theorem State.stack_endStep : (s.endStep).stack = s.stack := rfl
@[simp] theorem State.disp_endStep : (s.endStep).disp = s.disp := rfl
@[simp] theorem State.latch_endStep : (s.endStep).latch = s.latch := rfl
@[simp] theorem State.fault_endStep : (s.endStep).fault = s.fault := rfl
@[simp] theorem State.inputs_endStep : (s.endStep).inputs = StepInputs.idle := rfl
@[simp] theorem State.host_endStep : (s.endStep).host = s.host := rfl
@[simp] theorem State.draws_endStep : (s.endStep).draws = s.draws := rfl
@[simp] theorem State.reg_endStep (g : Reg) : (s.endStep).reg g = s.reg g := rfl
@[simp] theorem State.byte_endStep (b : Nat) : (s.endStep).byte b = s.byte b := rfl
@[simp] theorem State.pixel_endStep (c' : Fin 64) (r' : Fin 32) : (s.endStep).pixel c' r' = s.pixel c' r' := rfl

/-! ### `tick` -/

@[simp] theorem State.mem_tick : (s.tick).mem = s.mem := rfl
@[simp] theorem State.x_tick : (s.tick).x = s.x := rfl
@[simp] theorem State.i_tick : (s.tick).i = s.i := rfl
@[simp] theorem State.pc_tick : (s.tick).pc = s.pc := rfl
@[simp] theorem State.dt_tick : (s.tick).dt = countDown s.dt := rfl
@[simp] theorem State.st_tick : (s.tick).st = countDown s.st := rfl
@[simp] theorem State.stack_tick : (s.tick).stack = s.stack := rfl
@[simp] theorem State.disp_tick : (s.tick).disp = s.disp := rfl
@[simp] theorem State.latch_tick : (s.tick).latch = s.latch := rfl
@[simp] theorem State.fault_tick : (s.tick).fault = s.fault := rfl
@[simp] theorem State.inputs_tick : (s.tick).inputs = s.inputs := rfl
@[simp] theorem State.host_tick : (s.tick).host = s.host := rfl
@[simp] theorem State.draws_tick : (s.tick).draws = s.draws := rfl
@[simp] theorem State.reg_tick (g : Reg) : (s.tick).reg g = s.reg g := rfl
@[simp] theorem State.byte_tick (b : Nat) : (s.tick).byte b = s.byte b := rfl
@[simp] theorem State.pixel_tick (c' : Fin 64) (r' : Fin 32) : (s.tick).pixel c' r' = s.pixel c' r' := rfl

/-! ### `skipIf` -/

@[simp] theorem State.mem_skipIf (b : Bool) : (s.skipIf b).mem = s.mem := by cases b <;> rfl
@[simp] theorem State.x_skipIf (b : Bool) : (s.skipIf b).x = s.x := by cases b <;> rfl
@[simp] theorem State.i_skipIf (b : Bool) : (s.skipIf b).i = s.i := by cases b <;> rfl
@[simp] theorem State.dt_skipIf (b : Bool) : (s.skipIf b).dt = s.dt := by cases b <;> rfl
@[simp] theorem State.st_skipIf (b : Bool) : (s.skipIf b).st = s.st := by cases b <;> rfl
@[simp] theorem State.stack_skipIf (b : Bool) : (s.skipIf b).stack = s.stack := by cases b <;> rfl
@[simp] theorem State.disp_skipIf (b : Bool) : (s.skipIf b).disp = s.disp := by cases b <;> rfl
@[simp] theorem State.latch_skipIf (b : Bool) : (s.skipIf b).latch = s.latch := by cases b <;> rfl
@[simp] theorem State.fault_skipIf (b : Bool) : (s.skipIf b).fault = s.fault := by cases b <;> rfl
@[simp] theorem State.inputs_skipIf (b : Bool) : (s.skipIf b).inputs = s.inputs := by cases b <;> rfl
@[simp] theorem State.host_skipIf (b : Bool) : (s.skipIf b).host = s.host := by cases b <;> rfl
@[simp] theorem State.draws_skipIf (b : Bool) : (s.skipIf b).draws = s.draws := by cases b <;> rfl
@[simp] theorem State.reg_skipIf (b : Bool) (g : Reg) : (s.skipIf b).reg g = s.reg g := by cases b <;> rfl
@[simp] theorem State.byte_skipIf (b : Bool) (a : Nat) : (s.skipIf b).byte a = s.byte a := by cases b <;> rfl
@[simp] theorem State.pixel_skipIf (b : Bool) (c' : Fin 64) (r' : Fin 32) : (s.skipIf b).pixel c' r' = s.pixel c' r' := by cases b <;> rfl

/-- The skip rule: A + 4 when the condition holds, A + 2 otherwise (R70). -/
theorem State.pc_skipIf (b : Bool) : (s.skipIf b).pc = if b then s.pc + 2 else s.pc := by cases b <;> rfl

/-! ### The changed part itself -/

theorem State.reg_setReg (r g : Reg) (v : Byte) : (s.setReg r v).reg g = if g = r then v else s.reg g := by
  simp only [State.reg, State.setReg, Fin.getElem_fin]
  by_cases h : g = r
  · subst h; simp
  · have : (r : Nat) ≠ g := fun e => h (Fin.ext e.symm)
    simp [h, this]

@[simp] theorem State.reg_setReg_same (r : Reg) (v : Byte) : (s.setReg r v).reg r = v := by
  simp [State.reg_setReg]

theorem State.reg_setReg_other {r g : Reg} (h : g ≠ r) (v : Byte) : (s.setReg r v).reg g = s.reg g := by
  simp [State.reg_setReg, h]

theorem State.pixel_setPixel (p c : Fin 64) (q r : Fin 32) (v : Bool) :
    (s.setPixel p q v).pixel c r = if c = p ∧ r = q then v else s.pixel c r := by
  simp only [State.pixel, State.setPixel, Fin.getElem_fin]
  by_cases h : c = p
  · subst h
    by_cases h' : r = q
    · subst h'; simp
    · have : (q : Nat) ≠ r := fun e => h' (Fin.ext e.symm)
      simp [h', this]
  · have : (p : Nat) ≠ c := fun e => h (Fin.ext e.symm)
    simp [h, this]

@[simp] theorem State.pixel_clearDisp (c : Fin 64) (r : Fin 32) : s.clearDisp.pixel c r = false := by
  simp [State.pixel, State.clearDisp]

/-- Two displays with the same pixels are equal. -/
theorem disp_ext {d e : Display} (h : ∀ (c : Fin 64) (r : Fin 32), d[c][r] = e[c][r]) : d = e := by
  apply Vector.ext
  intro c hc
  apply Vector.ext
  intro r hr
  exact h ⟨c, hc⟩ ⟨r, hr⟩

/-- Two register files with the same registers are equal. -/
theorem regs_ext {x y : Vector Byte 16} (h : ∀ r : Reg, x[r] = y[r]) : x = y := by
  apply Vector.ext
  intro r hr
  exact h ⟨r, hr⟩

/-! ### Results -/

@[simp] theorem onNext_next (f : State → State) : onNext (.next s) f = .next (f s) := rfl

/-- A result that `onNext` makes go on came from one that goes on. -/
theorem onNext_eq_next {r : Result} {f : State → State} {t : State} (h : onNext r f = .next t) :
    ∃ u, r = .next u ∧ t = f u := by
  cases r with
  | next u => exact ⟨u, rfl, by simpa [onNext] using h.symm⟩
  | fault _ => cases h
  | refused _ => cases h

/-! ### Run status (R31) -/

theorem State.status_running : s.status = .running ↔ s.fault = none ∧ s.latch.active = false := by
  unfold State.status; cases s.fault <;> cases s.latch.active <;> simp

theorem State.status_waiting : s.status = .waiting ↔ s.fault = none ∧ s.latch.active = true := by
  unfold State.status; cases s.fault <;> cases s.latch.active <;> simp

theorem State.status_halted : s.status = .halted ↔ ∃ r, s.fault = some r := by
  unfold State.status; cases s.fault <;> cases s.latch.active <;> simp

end Sys2Proof.Machine
end

