-- ==== Sys2Proof/Laws/Flags.lean ====
section
/-! SUPPORT. What the flag-writing operations do, once for all five, and the key index. -/

namespace Sys2Proof.Machine

theorem flagByte_toNat (p : Prop) [Decidable p] : (flagByte (decide p)).toNat = if p then 1 else 0 := by
  unfold flagByte
  by_cases h : p <;> simp [h]

/-- The frame of 8xy4, 8xy5 and 8xy7, for a flag with the number `k` and a result that computes `g` on numbers. -/
theorem flagOp2_written (x y : Reg) (s : State) (flag result : Byte → Byte → Byte) {k : Nat} {g : Nat → Nat → Nat}
    (hf : (flag (s.reg x) (s.reg y)).toNat = k) (hr : ∀ a b, (result a b).toNat = g a.toNat b.toNat) :
    FlagWritten x y k g s (s.flagOp2 Config.vfAlias x y flag result) := by
  subst hf
  unfold State.flagOp2
  refine ⟨?_, ?_, ?_, ?_, ?_⟩
  · intro h
    simp [State.reg_setReg, Ne.symm h]
  · intro h h'
    simp [resultOperand, h, h', hr]
  · intro h
    simp [resultOperand, h, hr]
  · intro h
    simp only [resultOperand, h, State.reg_setReg_same, hr]
    by_cases h1 : x = VF <;> by_cases h2 : y = VF <;> simp [h1, h2]
  · intro p hp
    cases p <;> simp_all [SamePart, State.reg_setReg]

/-- The frame of 8xy6 and 8xyE. -/
theorem flagOp1_written (x : Reg) (s : State) (flag result : Byte → Byte) {k : Nat} {g : Nat → Nat → Nat}
    (hf : (flag (s.reg x)).toNat = k) (hr : ∀ a b, (result a).toNat = g a.toNat b) :
    FlagWritten x x k g s (s.flagOp1 Config.vfAlias x flag result) := by
  subst hf
  unfold State.flagOp1
  refine ⟨?_, ?_, ?_, ?_, ?_⟩
  · intro h
    simp [State.reg_setReg, Ne.symm h]
  · intro h _
    simp [resultOperand, h, hr _ (s.reg x).toNat]
  · intro h
    simp [resultOperand, h, hr _ (s.reg x).toNat]
  · intro h
    simp only [resultOperand, h, State.reg_setReg_same]
    by_cases h1 : x = VF
    · simp [h1]
      exact hr _ _
    · simp [h1]
      exact hr _ _
  · intro p hp
    cases p <;> simp_all [SamePart, State.reg_setReg]

theorem keyIndex_of_eq {v : Byte} {k : Fin 16} (h : v.toNat = k) : keyIndex v = some k := by
  rw [keyIndex, dif_pos (by omega)]
  exact congrArg some (Fin.ext h)

theorem keyIndex_none {v : Byte} (h : 15 < v.toNat) : keyIndex v = none := by
  rw [keyIndex, dif_neg (by omega)]

end Sys2Proof.Machine
end

