-- ==== Sys2Proof/Laws/Memory.lean ====
section
/-! SUPPORT. Memory: a read after a write, and the canonical form that every memory operation keeps. -/

namespace Sys2Proof.Machine

theorem readCell_removeCell (m : Memory) (a b : Nat) :
    readCell (removeCell m a) b = if b = a then resetByte b else readCell m b := by
  induction m with
  | nil => simp [removeCell, readCell]
  | cons cell rest ih =>
    obtain ⟨c, u⟩ := cell
    by_cases hac : a = c
    · subst hac
      simp only [removeCell, readCell, ite_true, ih]
      split <;> rfl
    · by_cases hbc : b = c
      · subst hbc
        simp [removeCell, readCell, hac, Ne.symm hac]
      · simp [removeCell, readCell, hac, hbc, ih]

theorem readCell_insertCell (m : Memory) (a b : Nat) (v : Byte) (h : a ∉ m.map Prod.fst) :
    readCell (insertCell m a v) b = if b = a then v else readCell m b := by
  induction m with
  | nil => simp [insertCell, readCell]
  | cons cell rest ih =>
    obtain ⟨c, u⟩ := cell
    simp only [List.map_cons, List.mem_cons, not_or] at h
    unfold insertCell
    split
    · simp [readCell]
    · by_cases hbc : b = c
      · subst hbc
        simp [readCell, Ne.symm h.1]
      · simp [readCell, hbc, ih h.2]

theorem not_mem_removeCell (m : Memory) (a : Nat) : a ∉ (removeCell m a).map Prod.fst := by
  induction m with
  | nil => simp [removeCell]
  | cons cell rest ih =>
    unfold removeCell
    split
    · exact ih
    · simp only [List.map_cons, List.mem_cons, not_or]
      exact ⟨‹_›, ih⟩

/-- A read after a write gives the byte written at its address, and every other byte as before (R51). -/
theorem readCell_writeCell (m : Memory) {a : Nat} (h : a < Config.memSize) (v : Byte) (b : Nat) :
    readCell (writeCell m a v) b = if b = a then v else readCell m b := by
  unfold writeCell
  rw [if_pos h]
  split
  · subst v
    rw [readCell_removeCell]
    split <;> simp_all
  · rw [readCell_insertCell _ _ _ _ (not_mem_removeCell m a), readCell_removeCell]
    split <;> simp_all

/-- A write outside memory writes nothing (R39). -/
theorem writeCell_outside (m : Memory) {a : Nat} (h : Config.memSize ≤ a) (v : Byte) : writeCell m a v = m := by
  simp [writeCell, Nat.not_lt.mpr h]

theorem State.byte_setByte (s : State) {a : Nat} (h : a < Config.memSize) (v : Byte) (b : Nat) :
    (s.setByte a v).byte b = if b = a then v else s.byte b := readCell_writeCell s.mem h v b

theorem State.byte_setByte_of_ne (s : State) {a b : Nat} (h : b ≠ a) (v : Byte) :
    (s.setByte a v).byte b = s.byte b := by
  by_cases ha : a < Config.memSize
  · rw [s.byte_setByte ha, if_neg h]
  · simp only [State.byte, State.setByte, writeCell, if_neg ha]

/-- What consecutive writes within memory do: the bytes of the list stand at their addresses, the rest is unchanged. -/
theorem readCell_writeCells (m : Memory) (base : Nat) (vs : List Byte) (h : base + vs.length ≤ Config.memSize) (a : Nat) :
    readCell (writeCells m base vs) a =
      if h : base ≤ a ∧ a < base + vs.length then vs[a - base]'(by omega) else readCell m a := by
  induction vs generalizing m base with
  | nil => simp [writeCells]
  | cons v r ih =>
    have hl : base + (r.length + 1) ≤ Config.memSize := h
    rw [writeCells, ih _ _ (by omega), readCell_writeCell _ (by omega)]
    by_cases h1 : a = base
    · subst h1
      simp
    · by_cases h2 : base + 1 ≤ a ∧ a < base + 1 + r.length
      · rw [dif_pos h2, dif_pos ⟨by omega, by rw [List.length_cons]; omega⟩]
        have : a - base = (a - (base + 1)) + 1 := by omega
        simp [this]
      · rw [dif_neg h2, if_neg h1, dif_neg (by rw [List.length_cons]; omega)]

/-! ### The canonical form -/

theorem cellsWf_mono {m : Memory} {l k : Nat} (h : cellsWf k m = true) (hl : l ≤ k) : cellsWf l m = true := by
  cases m with
  | nil => rfl
  | cons cell rest =>
    simp only [cellsWf, Bool.and_eq_true, decide_eq_true_eq] at h ⊢
    exact ⟨⟨⟨by omega, h.1.1.2⟩, h.1.2⟩, h.2⟩

theorem cellsWf_removeCell {m : Memory} {l : Nat} (a : Nat) (h : cellsWf l m = true) :
    cellsWf l (removeCell m a) = true := by
  induction m generalizing l with
  | nil => rfl
  | cons cell rest ih =>
    simp only [cellsWf, Bool.and_eq_true, decide_eq_true_eq] at h
    unfold removeCell
    split
    · exact ih (cellsWf_mono h.2 (by omega))
    · simp only [cellsWf, Bool.and_eq_true, decide_eq_true_eq]
      exact ⟨h.1, ih h.2⟩

theorem cellsWf_insertCell {m : Memory} {l a : Nat} {v : Byte} (h : cellsWf l m = true)
    (hn : a ∉ m.map Prod.fst) (hl : l ≤ a) (ha : a < Config.memSize) (hv : v ≠ resetByte a) :
    cellsWf l (insertCell m a v) = true := by
  induction m generalizing l with
  | nil => simp [insertCell, cellsWf, hl, ha, hv]
  | cons cell rest ih =>
    simp only [cellsWf, Bool.and_eq_true, decide_eq_true_eq] at h
    simp only [List.map_cons, List.mem_cons, not_or] at hn
    unfold insertCell
    split
    · simp only [cellsWf, Bool.and_eq_true, decide_eq_true_eq]
      exact ⟨⟨⟨hl, ha⟩, hv⟩, ⟨⟨by omega, h.1.1.2⟩, h.1.2⟩, h.2⟩
    · simp only [cellsWf, Bool.and_eq_true, decide_eq_true_eq]
      exact ⟨h.1, ih h.2 hn.2 (by omega)⟩

/-- A write keeps the canonical form. -/
theorem writeCell_wf {m : Memory} (a : Nat) (v : Byte) (h : m.wf = true) : (writeCell m a v).wf = true := by
  unfold writeCell
  split
  · split
    · exact cellsWf_removeCell a h
    · exact cellsWf_insertCell (cellsWf_removeCell a h) (not_mem_removeCell m a) (Nat.zero_le a) ‹_› ‹_›
  · exact h

/-- A write of several bytes keeps the canonical form. -/
theorem writeCells_wf {m : Memory} (base : Nat) (vs : List Byte) (h : m.wf = true) :
    (writeCells m base vs).wf = true := by
  induction vs generalizing m base with
  | nil => exact h
  | cons v rest ih => exact ih _ (writeCell_wf base v h)

theorem State.wf_setByte {s : State} (a : Nat) (v : Byte) (h : s.mem.wf = true) :
    (s.setByte a v).mem.wf = true := writeCell_wf a v h

/-- The memory of reset has the canonical form. -/
theorem reset_memory_wf : State.reset.mem.wf = true := rfl

end Sys2Proof.Machine
end

