-- ==== Sys2Proof/Laws/Transfer.lean ====
section
/-! SUPPORT. What the register transfers to and from memory do (42_index_memory.md R99, R100), and the range
check before them. -/

namespace Sys2Proof.Machine

theorem regNumber_val {n : Nat} (h : n < 16) : (regNumber n : Nat) = n := by
  simp [regNumber, Nat.mod_eq_of_lt h]

theorem regNumber_fin (r : Reg) : regNumber r = r := by
  apply Fin.ext; exact regNumber_val r.isLt

/-- The range check fails exactly when the last address is past memory, and then names the first such. -/
theorem rangeFault_eq (base last : Nat) :
    rangeFault base last =
      if Config.memSize ≤ last then some (.memOutOfRange (max base Config.memSize)) else none := rfl

/-- Everything `storeRegs` does: its memory, and that nothing else changes. -/
theorem State.storeRegs_spec (s : State) (base : Nat) {count : Nat} (h : base + count ≤ Config.memSize) :
    (∀ a, (s.storeRegs base count).byte a =
      if base ≤ a ∧ a < base + count then s.reg (regNumber (a - base)) else s.byte a) ∧
    ∃ m, s.storeRegs base count = { s with mem := m } := by
  induction count with
  | zero => exact ⟨fun a => by rw [if_neg (by omega)]; rfl, s.mem, rfl⟩
  | succ count ih =>
    obtain ⟨hb, m, hm⟩ := ih (by omega)
    refine ⟨fun a => ?_, writeCell m (base + count) (s.reg (regNumber count)), by
      unfold State.storeRegs; rw [hm]; rfl⟩
    unfold State.storeRegs
    rw [State.byte_setByte _ (by omega), hb a]
    by_cases ha : a = base + count
    · subst ha
      rw [if_pos rfl, if_pos ⟨by omega, by omega⟩, Nat.add_sub_cancel_left]
    · rw [if_neg ha]
      by_cases hr : base ≤ a ∧ a < base + count
      · rw [if_pos hr, if_pos ⟨by omega, by omega⟩]
      · rw [if_neg hr, if_neg (by omega)]

theorem State.wf_storeRegs {s : State} (base count : Nat) (h : s.mem.wf = true) :
    (s.storeRegs base count).mem.wf = true := by
  induction count with
  | zero => exact h
  | succ count ih => exact State.wf_setByte _ _ ih

/-- Everything `loadRegs` does: its registers, and that nothing else changes. -/
theorem State.loadRegs_spec (s : State) (base : Nat) {count : Nat} (h : count ≤ 16) :
    (∀ r : Reg, (s.loadRegs base count).reg r = if (r : Nat) < count then s.byte (base + r) else s.reg r) ∧
    ∃ x, s.loadRegs base count = { s with x := x } := by
  induction count with
  | zero => exact ⟨fun r => by rw [if_neg (by omega)]; rfl, s.x, rfl⟩
  | succ count ih =>
    obtain ⟨hr, x, hx⟩ := ih (by omega)
    refine ⟨fun r => ?_, x.set (regNumber count) (s.byte (base + count)), by
      unfold State.loadRegs; rw [hx]; rfl⟩
    unfold State.loadRegs
    rw [State.reg_setReg, hr r]
    have hv := regNumber_val (n := count) (by omega)
    by_cases hc : r = regNumber count
    · rw [if_pos hc, if_pos (by rw [hc, hv]; omega), hc, hv]
    · have : (r : Nat) ≠ count := fun e => hc (Fin.ext (by rw [hv]; exact e))
      rw [if_neg hc]
      by_cases hl : (r : Nat) < count
      · rw [if_pos hl, if_pos (by omega)]
      · rw [if_neg hl, if_neg (by omega)]

end Sys2Proof.Machine
end

