-- ==== Sys2Proof/Laws/Cycle.lean ====
section
/-! SUPPORT. Composing frames, what a fetch answers, when an action is a step of the core, and that every instruction
keeps memory in its canonical form. -/

namespace Sys2Proof.Machine

/-! ### Frames -/

theorem SameBut.mono {l l' : List Part} {s t : State} (h : SameBut l s t) (k : ∀ p ∈ l, p ∈ l') : SameBut l' s t :=
  fun p hp => h p (fun q => hp (k p q))

theorem SamePart.trans {s t u : State} {p : Part} (h : SamePart s t p) (k : SamePart t u p) : SamePart s u p := by
  cases p <;> exact Eq.trans k h

theorem SameBut.trans {l l' : List Part} {s t u : State} (h : SameBut l s t) (k : SameBut l' t u) :
    SameBut (l ++ l') s u :=
  fun p hp => (h p (fun q => hp (List.mem_append_left _ q))).trans (k p (fun q => hp (List.mem_append_right _ q)))

/-! ### Fetch and step -/

theorem State.fetch_inside {s : State} (h : s.pc.toNat + 1 < Config.memSize) :
    s.fetch = .ok (wordOfBytes (s.byte s.pc.toNat) (s.byte (s.pc.toNat + 1))) := by
  unfold State.fetch State.memRead
  rw [if_pos (by omega)]
  simp only
  rw [if_pos h]

theorem State.fetch_outside {s : State} (h : Config.memSize ≤ s.pc.toNat + 1) :
    s.fetch = .error (.memOutOfRange (max s.pc.toNat Config.memSize)) := by
  unfold State.fetch State.memRead
  by_cases hp : s.pc.toNat < Config.memSize
  · rw [if_pos hp]
    simp only
    rw [if_neg (by omega)]
    simp only
    congr 2
    omega
  · rw [if_neg hp]
    simp only
    congr 2
    omega

theorem State.fetch_withInputs (s : State) (key : KeySnapshot) (rand8 : Byte) :
    (s.withInputs key rand8).fetch = s.fetch := rfl

/-- A step of a running core is the instruction cycle with the inputs supplied and then let go. -/
theorem act_step_of_running {s : State} (h : s.status = .running) (key : KeySnapshot) (rand8 : Byte) :
    act (.step key rand8) s = onNext (instructionCycle (s.withInputs key rand8)) State.endStep := by
  obtain ⟨hf, hl⟩ := s.status_running.mp h
  simp [act, hf, hl]

/-- A step of a running core that fetches the word of an instruction is `exec` of it, after the advance. -/
theorem act_step_of_fetch {s : State} {w : Word} {i : Instr} (h : s.status = .running) (hw : s.fetch = .ok w)
    (hi : decodeWord w = .ok i) (key : KeySnapshot) (rand8 : Byte) :
    act (.step key rand8) s = onNext (exec i (s.withInputs key rand8).advance) State.endStep := by
  rw [act_step_of_running h, instructionCycle, State.fetch_withInputs, hw]
  simp only [hi]

/-! ### Memory stays canonical -/

theorem State.mem_drawCols (s : State) (row : Byte) (cx : Nat) (y : Fin 32) (cols : List Nat) :
    (s.drawCols row cx y cols).mem = s.mem := by
  induction cols generalizing s with
  | nil => rfl
  | cons c cols ih =>
    unfold State.drawCols
    split
    · rw [ih]
      split
      · unfold State.togglePixel
        split <;> rfl
      · rfl
    · rfl

theorem State.mem_drawRows (s : State) (w : Word) (base cx cy : Nat) (rows : List Nat) :
    (s.drawRows w base cx cy rows).mem = s.mem := by
  induction rows generalizing s with
  | nil => rfl
  | cons r rows ih =>
    unfold State.drawRows
    cases s.memRead (base + r) with
    | error c => rfl
    | ok v =>
      simp only
      split
      · rw [ih, State.mem_drawCols]
      · rfl

theorem State.mem_loadRegs (s : State) (base count : Nat) : (s.loadRegs base count).mem = s.mem := by
  induction count with
  | zero => rfl
  | succ count ih =>
    unfold State.loadRegs
    exact ih

/-- Every instruction keeps the canonical form. -/
theorem exec_wf {i : Instr} {s t : State} (h : exec i s = .next t) (hw : s.mem.wf = true) : t.mem.wf = true := by
  cases i
  case drw x y n =>
    simp only [exec, execDrw] at h
    cases h
    rw [State.mem_drawRows]
    exact hw
  case stRegs x =>
    simp only [exec, execStRegs] at h
    split at h <;> cases h
    · exact hw
    · exact State.wf_storeRegs _ _ hw
  case ldRegs x =>
    simp only [exec, execLdRegs] at h
    split at h <;> cases h
    · exact hw
    · rw [State.mem_loadRegs]
      exact hw
  case ldBcd x =>
    simp only [exec, execLdBcd] at h
    split at h <;> cases h
    · exact hw
    · exact writeCell_wf _ _ (writeCell_wf _ _ (writeCell_wf _ _ hw))
  case ret ign =>
    simp only [exec, execRet, State.pop] at h
    cases hl : s.stack.getLast? <;> rw [hl] at h <;> cases h <;> exact hw
  case skp x =>
    simp only [exec, execSkp] at h
    split at h <;> cases h
    · exact hw
    · rw [State.mem_skipIf]
      exact hw
  case sknp x =>
    simp only [exec, execSknp] at h
    split at h <;> cases h
    · exact hw
    · rw [State.mem_skipIf]
      exact hw
  all_goals
    cases h
    first
      | exact hw
      | rw [State.mem_skipIf]
        exact hw

end Sys2Proof.Machine
end

