-- ==== Sys2Proof/Laws/Draw.lean ====
section
/-! SUPPORT. What one pixel, one row and the rows of a sprite do (43_display.md R102 to R107). -/

namespace Sys2Proof.Machine

theorem originCol_eq (v : Byte) : originCol v = v.toNat % 64 := by
  simp only [originCol, BitVec.toNat_and]
  exact Nat.and_two_pow_sub_one_eq_mod v.toNat 6

theorem originRow_eq (v : Byte) : originRow v = v.toNat % 32 := by
  simp only [originRow, BitVec.toNat_and]
  exact Nat.and_two_pow_sub_one_eq_mod v.toNat 5

theorem spriteBit_eq (row : Byte) (c : Nat) : spriteBit row c = decide (row.toNat / 2 ^ (7 - c) % 2 = 1) := by
  simp [spriteBit, BitVec.getLsbD, Nat.testBit_eq_decide_div_mod_eq]

/-- The parts that drawing never touches. -/
structure DrawFrame (s t : State) : Prop where
  mem : t.mem = s.mem
  i : t.i = s.i
  pc : t.pc = s.pc
  dt : t.dt = s.dt
  st : t.st = s.st
  stack : t.stack = s.stack
  latch : t.latch = s.latch
  inputs : t.inputs = s.inputs
  host : t.host = s.host
  draws : t.draws = s.draws
  regs : ∀ r, r ≠ VF → t.reg r = s.reg r

theorem DrawFrame.refl (s : State) : DrawFrame s s :=
  ⟨rfl, rfl, rfl, rfl, rfl, rfl, rfl, rfl, rfl, rfl, fun _ _ => rfl⟩

theorem DrawFrame.trans {s t u : State} (h : DrawFrame s t) (k : DrawFrame t u) : DrawFrame s u :=
  ⟨k.mem.trans h.mem, k.i.trans h.i, k.pc.trans h.pc, k.dt.trans h.dt, k.st.trans h.st,
   k.stack.trans h.stack, k.latch.trans h.latch, k.inputs.trans h.inputs, k.host.trans h.host,
   k.draws.trans h.draws, fun r hr => (k.regs r hr).trans (h.regs r hr)⟩

/-- Drawing the set `on` of pixels from `s` leads to `t`: every pixel of the set is inverted and no other; VF is
1 if one of them was on, and else as before; nothing else changes. -/
structure Drawn (on : Fin 64 → Fin 32 → Prop) (s t : State) : Prop where
  pixels : ∀ c r, (t.pixel c r = true) ↔ (s.pixel c r = true ↔ ¬ on c r)
  hit : (∃ c r, on c r ∧ s.pixel c r = true) → t.reg VF = 1
  miss : (¬ ∃ c r, on c r ∧ s.pixel c r = true) → t.reg VF = s.reg VF
  fault : t.fault = s.fault
  frame : DrawFrame s t

theorem Drawn.nothing {on : Fin 64 → Fin 32 → Prop} (s : State) (h : ∀ c r, ¬ on c r) : Drawn on s s where
  pixels c r := by simp [h c r]
  hit := fun ⟨c, r, ho, _⟩ => absurd ho (h c r)
  miss _ := rfl
  fault := rfl
  frame := .refl s

/-- Two drawings of disjoint sets, one after the other, draw their union. -/
theorem Drawn.trans {on on' both : Fin 64 → Fin 32 → Prop} {s t u : State} (h : Drawn on s t)
    (k : Drawn on' t u) (hb : ∀ c r, both c r ↔ on c r ∨ on' c r) (hd : ∀ c r, on c r → ¬ on' c r) :
    Drawn both s u where
  pixels c r := by
    have h1 := h.pixels c r
    have h2 := k.pixels c r
    have h3 := hb c r
    have h4 := hd c r
    tauto
  hit := by
    rintro ⟨c, r, ho, hp⟩
    by_cases hk : ∃ c r, on' c r ∧ t.pixel c r = true
    · exact k.hit hk
    · rw [k.miss hk]
      rcases (hb c r).mp ho with ho | ho
      · exact h.hit ⟨c, r, ho, hp⟩
      · exact absurd ⟨c, r, ho, (h.pixels c r).mpr ⟨fun _ hn => hd c r hn ho, fun _ => hp⟩⟩ hk
  miss := by
    intro hn
    have hs : ¬ ∃ c r, on c r ∧ s.pixel c r = true :=
      fun ⟨c, r, ho, hp⟩ => hn ⟨c, r, (hb c r).mpr (.inl ho), hp⟩
    have ht : ¬ ∃ c r, on' c r ∧ t.pixel c r = true := by
      rintro ⟨c, r, ho, hp⟩
      have hoff : ¬ on c r := fun hon => hd c r hon ho
      exact hn ⟨c, r, (hb c r).mpr (.inr ho), ((h.pixels c r).mp hp).mpr hoff⟩
    rw [k.miss ht, h.miss hs]
  fault := k.fault.trans h.fault
  frame := h.frame.trans k.frame

/-- One on bit of the sprite (R106). -/
theorem togglePixel_drawn (s : State) (p : Fin 64) (q : Fin 32) :
    Drawn (fun c r => c = p ∧ r = q) s (s.togglePixel p q) := by
  unfold State.togglePixel
  split
  · rename_i hon
    refine ⟨fun c r => ?_, fun _ => by simp, fun hn => absurd ⟨p, q, ⟨rfl, rfl⟩, hon⟩ hn, rfl, ?_⟩
    · simp only [State.pixel_setReg, State.pixel_setPixel]
      by_cases h : c = p ∧ r = q
      · obtain ⟨rfl, rfl⟩ := h; simp [hon]
      · simp [h]
    · exact ⟨rfl, rfl, rfl, rfl, rfl, rfl, rfl, rfl, rfl, rfl, fun r hr => by
        rw [State.reg_setReg_other _ hr]; rfl⟩
  · rename_i hoff
    refine ⟨fun c r => ?_, fun ⟨c, r, ⟨hc, hr⟩, hp⟩ => absurd (hc ▸ hr ▸ hp) hoff, fun _ => rfl, rfl, ?_⟩
    · simp only [State.pixel_setPixel]
      by_cases h : c = p ∧ r = q
      · obtain ⟨rfl, rfl⟩ := h; simp [hoff]
      · simp [h]
    · exact ⟨rfl, rfl, rfl, rfl, rfl, rfl, rfl, rfl, rfl, rfl, fun _ _ => rfl⟩

/-- One row of a sprite, clipped at the right edge (R105). -/
theorem drawCols_drawn (s : State) (row : Byte) (cx : Nat) (y : Fin 32) {start len : Nat} :
    Drawn (fun c r => r = y ∧ ∃ col, start ≤ col ∧ col < start + len ∧ cx + col = c ∧
        spriteBit row col = true) s
      (s.drawCols row cx y (List.range' start len)) := by
  induction len generalizing s start with
  | zero => exact .nothing s (by rintro c r ⟨_, col, h1, h2, _⟩; omega)
  | succ len ih =>
    rw [List.range'_succ]
    unfold State.drawCols
    split
    · rename_i hin
      have head : Drawn (fun c r => r = y ∧ c = ⟨cx + start, hin⟩ ∧ spriteBit row start = true) s
          (if spriteBit row start then s.togglePixel ⟨cx + start, hin⟩ y else s) := by
        split
        · rename_i hb
          have := togglePixel_drawn s ⟨cx + start, hin⟩ y
          convert this using 3
          simp [hb, and_comm]
        · rename_i hb
          exact .nothing s (by rintro c r ⟨_, _, h⟩; exact hb h)
      refine head.trans (ih _) (fun c r => ?_) ?_
      · constructor
        · rintro ⟨rfl, col, h1, h2, h3, h4⟩
          by_cases hc : col = start
          · subst hc; exact .inl ⟨rfl, Fin.ext h3.symm, h4⟩
          · exact .inr ⟨rfl, col, by omega, by omega, h3, h4⟩
        · rintro (⟨rfl, rfl, h4⟩ | ⟨rfl, col, h1, h2, h3, h4⟩)
          · exact ⟨rfl, start, by omega, by omega, rfl, h4⟩
          · exact ⟨rfl, col, by omega, by omega, h3, h4⟩
      · rintro c r ⟨_, rfl, _⟩ ⟨_, col, h1, _, h3, _⟩
        simp only at h3
        omega
    · exact .nothing s (by rintro c r ⟨_, col, h1, h2, h3, _⟩; have := c.isLt; omega)

/-- The rows of a sprite (R102, R105, R107): either every row reached is read and drawn, or the first row whose
byte does not exist raises MemOutOfRange after the rows above it are drawn. -/
theorem drawRows_spec (s : State) (w : Word) (base cx cy : Nat) {start len : Nat} :
    ∃ u, Drawn (fun c r => ∃ row col, start ≤ row ∧ row < start + len ∧ col < 8 ∧
          base + row < Config.memSize ∧ cx + col = c ∧ cy + row = r ∧
          spriteBit (s.byte (base + row)) col = true) s u ∧
      ((∃ row, start ≤ row ∧ row < start + len ∧ cy + row ≤ 32 ∧ Config.memSize ≤ base + row) →
        cy + start ≤ 32 →
        s.drawRows w base cx cy (List.range' start len) =
          u.raise (.memOutOfRange (max (base + start) Config.memSize)) w) ∧
      ((¬ ∃ row, start ≤ row ∧ row < start + len ∧ cy + row ≤ 32 ∧ Config.memSize ≤ base + row) →
        cy + start ≤ 32 →
        s.drawRows w base cx cy (List.range' start len) = u) := by
  induction len generalizing s start with
  | zero =>
    refine ⟨s, .nothing s (by rintro c r ⟨row, col, h1, h2, _⟩; omega), ?_, fun _ _ => rfl⟩
    rintro ⟨row, h1, h2, _⟩; omega
  | succ len ih =>
    rw [List.range'_succ]
    by_cases hmem : base + start < Config.memSize
    · have hread : s.memRead (base + start) = .ok (s.byte (base + start)) := if_pos hmem
      by_cases hrow : cy + start < 32
      · have h1 := drawCols_drawn s (s.byte (base + start)) cx ⟨cy + start, hrow⟩ (start := 0) (len := 8)
        rw [← List.range_eq_range'] at h1
        generalize hv : s.drawCols (s.byte (base + start)) cx ⟨cy + start, hrow⟩ (List.range 8) = v at h1
        obtain ⟨u, hu, hf, hok⟩ := ih v (start := start + 1)
        have hbyte : ∀ a, v.byte a = s.byte a := fun a => by unfold State.byte; rw [h1.frame.mem]
        have heq : s.drawRows w base cx cy (start :: List.range' (start + 1) len) =
            v.drawRows w base cx cy (List.range' (start + 1) len) := by
          rw [State.drawRows, hread]
          simp only [hrow, dite_true, hv]
        refine ⟨u, h1.trans hu (fun c r => ?_) ?_, ?_, ?_⟩
        · constructor
          · rintro ⟨row, col, a1, a2, a3, a4, a5, a6, a7⟩
            by_cases hr : row = start
            · subst hr
              exact .inl ⟨Fin.ext a6.symm, col, by omega, by omega, a5, a7⟩
            · exact .inr ⟨row, col, by omega, by omega, a3, a4, a5, a6, by rw [hbyte]; exact a7⟩
          · rintro (⟨rfl, col, a1, a2, a3, a4⟩ | ⟨row, col, a1, a2, a3, a4, a5, a6, a7⟩)
            · exact ⟨start, col, by omega, by omega, by omega, hmem, a3, rfl, a4⟩
            · exact ⟨row, col, by omega, by omega, a3, a4, a5, a6, by rw [← hbyte]; exact a7⟩
        · rintro c r ⟨rfl, _⟩ ⟨row, col, b1, _, _, _, _, b6, _⟩
          simp only at b6
          omega
        · rintro ⟨row, a1, a2, a3, a4⟩ _
          rw [heq, hf ⟨row, by omega, by omega, a3, a4⟩ (by omega)]
          congr 2; omega
        · intro hn _
          rw [heq, hok (fun ⟨row, a1, a2, a3, a4⟩ => hn ⟨row, by omega, by omega, a3, a4⟩) (by omega)]
      · refine ⟨s, .nothing s ?_, ?_, ?_⟩
        · rintro c r ⟨row, col, a1, a2, a3, a4, a5, a6, a7⟩; have := r.isLt; omega
        · rintro ⟨row, a1, a2, a3, a4⟩ _; omega
        · intro _ _
          rw [State.drawRows, hread]
          simp only [hrow, dite_false]
    · have hread : s.memRead (base + start) = .error (.memOutOfRange (base + start)) := if_neg hmem
      refine ⟨s, .nothing s ?_, ?_, ?_⟩
      · rintro c r ⟨row, col, a1, a2, a3, a4, a5, a6, a7⟩; omega
      · intro _ _
        rw [State.drawRows, hread, Nat.max_eq_left (by omega)]
      · intro hn hc
        exact absurd ⟨start, by omega, by omega, hc, by omega⟩ hn

end Sys2Proof.Machine
end

