-- ==== Sys2Proof/Laws/Encoding.lean ====
section
/-! SUPPORT. The fields of a word as numbers, the fields of a packed word, and the three masks of the opcode map. -/

namespace Sys2Proof

/-! ### Fields as numbers -/

theorem fieldOp_toNat (w : Word) : (fieldOp w).toNat = w.toNat / 4096 := by
  simp [fieldOp, Nat.shiftRight_eq_div_pow]
  omega
theorem fieldX_toNat (w : Word) : (fieldX w).toNat = w.toNat / 256 % 16 := by
  simp [fieldX, Nat.shiftRight_eq_div_pow]
theorem fieldY_toNat (w : Word) : (fieldY w).toNat = w.toNat / 16 % 16 := by
  simp [fieldY, Nat.shiftRight_eq_div_pow]
theorem fieldN_toNat (w : Word) : (fieldN w).toNat = w.toNat % 16 := by simp [fieldN]
theorem fieldNN_toNat (w : Word) : (fieldNN w).toNat = w.toNat % 256 := by simp [fieldNN]
theorem fieldNNN_toNat (w : Word) : (fieldNNN w).toNat = w.toNat % 4096 := by simp [fieldNNN]

/-! ### Packed words -/

theorem packA_toNat (op : Nibble) (nnn : Addr12) : (packA op nnn).toNat = op.toNat * 4096 + nnn.toNat := by
  simp [packA]
  omega
theorem packXNN_toNat (op x : Nibble) (nn : Byte) :
    (packXNN op x nn).toNat = op.toNat * 4096 + x.toNat * 256 + nn.toNat := by
  simp [packXNN]
  omega
theorem packXYN_toNat (op x y n : Nibble) :
    (packXYN op x y n).toNat = op.toNat * 4096 + x.toNat * 256 + y.toNat * 16 + n.toNat := by
  simp [packXYN]
  omega

@[simp] theorem fieldOp_packA (op : Nibble) (nnn : Addr12) : fieldOp (packA op nnn) = op :=
  BitVec.eq_of_toNat_eq (by rw [fieldOp_toNat, packA_toNat]; omega)
@[simp] theorem fieldOp_packXNN (op x : Nibble) (nn : Byte) : fieldOp (packXNN op x nn) = op :=
  BitVec.eq_of_toNat_eq (by rw [fieldOp_toNat, packXNN_toNat]; omega)
@[simp] theorem fieldNN_packXNN (op x : Nibble) (nn : Byte) : fieldNN (packXNN op x nn) = nn :=
  BitVec.eq_of_toNat_eq (by rw [fieldNN_toNat, packXNN_toNat]; omega)
@[simp] theorem fieldOp_packXYN (op x y n : Nibble) : fieldOp (packXYN op x y n) = op :=
  BitVec.eq_of_toNat_eq (by rw [fieldOp_toNat, packXYN_toNat]; omega)
@[simp] theorem fieldN_packXYN (op x y n : Nibble) : fieldN (packXYN op x y n) = n :=
  BitVec.eq_of_toNat_eq (by rw [fieldN_toNat, packXYN_toNat]; omega)

/-! ### Masks -/

/-- A word as its family nibble and the rest. -/
theorem word_eq_append (w : Word) : w = fieldOp w ++ fieldNNN w := by
  apply BitVec.eq_of_toNat_eq
  rw [BitVec.toNat_append, ← Nat.shiftLeft_add_eq_or_of_lt (fieldNNN w).isLt, Nat.shiftLeft_eq,
    fieldOp_toNat, fieldNNN_toNat]
  omega

/-- A word as its family nibble, X, and its low byte. -/
theorem word_eq_append_byte (w : Word) : w = fieldOp w ++ (fieldX w ++ fieldNN w) := by
  apply BitVec.eq_of_toNat_eq
  rw [BitVec.toNat_append, BitVec.toNat_append, ← Nat.shiftLeft_add_eq_or_of_lt (fieldNN w).isLt,
    ← Nat.shiftLeft_add_eq_or_of_lt, Nat.shiftLeft_eq, Nat.shiftLeft_eq, fieldOp_toNat, fieldX_toNat, fieldNN_toNat]
  · omega
  · rw [Nat.shiftLeft_eq, fieldX_toNat, fieldNN_toNat]
    omega

/-- A word as its family nibble, the byte between, and its low nibble. -/
theorem word_eq_append_nibble (w : Word) : w = fieldOp w ++ (w.extractLsb' 4 8 ++ fieldN w) := by
  apply BitVec.eq_of_toNat_eq
  rw [BitVec.toNat_append, BitVec.toNat_append, ← Nat.shiftLeft_add_eq_or_of_lt (fieldN w).isLt,
    ← Nat.shiftLeft_add_eq_or_of_lt, Nat.shiftLeft_eq, Nat.shiftLeft_eq, fieldOp_toNat, fieldN_toNat,
    BitVec.extractLsb'_toNat, Nat.shiftRight_eq_div_pow]
  · omega
  · rw [Nat.shiftLeft_eq, fieldN_toNat, BitVec.extractLsb'_toNat, Nat.shiftRight_eq_div_pow]
    omega

/-- The mask of a family without a second discriminator keeps the family nibble. -/
theorem and_mask_family (w : Word) : w &&& 0xF000 = packA (fieldOp w) 0 := by
  have h : w &&& 0xF000 = (fieldOp w ++ fieldNNN w) &&& (0xF#4 ++ 0#12) :=
    congrArg (· &&& (0xF000 : Word)) (word_eq_append w)
  rw [h, BitVec.and_append, BitVec.and_zero, show fieldOp w &&& 0xF#4 = fieldOp w from BitVec.and_allOnes]
  apply BitVec.eq_of_toNat_eq
  rw [packA_toNat, BitVec.toNat_append]
  simp [Nat.shiftLeft_eq]

/-- The mask of families 0, E and F keeps the family nibble and the low byte. -/
theorem and_mask_byte (w : Word) : w &&& 0xF0FF = packXNN (fieldOp w) 0 (fieldNN w) := by
  have h : w &&& 0xF0FF = (fieldOp w ++ (fieldX w ++ fieldNN w)) &&& (0xF#4 ++ (0#4 ++ 0xFF#8)) :=
    congrArg (· &&& (0xF0FF : Word)) (word_eq_append_byte w)
  rw [h, BitVec.and_append, BitVec.and_append, BitVec.and_zero,
    show fieldOp w &&& 0xF#4 = fieldOp w from BitVec.and_allOnes,
    show fieldNN w &&& 0xFF#8 = fieldNN w from BitVec.and_allOnes]
  apply BitVec.eq_of_toNat_eq
  rw [packXNN_toNat, BitVec.toNat_append, ← Nat.shiftLeft_add_eq_or_of_lt (BitVec.isLt _),
    BitVec.toNat_append]
  simp [Nat.shiftLeft_eq]

/-- The mask of family 8 keeps the family nibble and the low nibble. -/
theorem and_mask_nibble (w : Word) : w &&& 0xF00F = packXYN (fieldOp w) 0 0 (fieldN w) := by
  have h : w &&& 0xF00F = (fieldOp w ++ (w.extractLsb' 4 8 ++ fieldN w)) &&& (0xF#4 ++ (0#8 ++ 0xF#4)) :=
    congrArg (· &&& (0xF00F : Word)) (word_eq_append_nibble w)
  rw [h, BitVec.and_append, BitVec.and_append, BitVec.and_zero,
    show fieldOp w &&& 0xF#4 = fieldOp w from BitVec.and_allOnes,
    show fieldN w &&& 0xF#4 = fieldN w from BitVec.and_allOnes]
  apply BitVec.eq_of_toNat_eq
  rw [packXYN_toNat, BitVec.toNat_append, ← Nat.shiftLeft_add_eq_or_of_lt (BitVec.isLt _),
    BitVec.toNat_append]
  simp [Nat.shiftLeft_eq]

end Sys2Proof
end

