-- ==== Sys2Proof/Laws/PerInstr.lean ====
section
/-! SUPPORT. Per instruction: its word belongs to its own row of the opcode map (spec/30_encoding.md R67). -/

namespace Sys2Proof.Laws.MatchesRow

/-- The word of the instruction has the mask and the pattern of the row with the instruction's mnemonic. -/
def Statement (i : Instr) : Prop :=
  ∃ row, row ∈ opcodeRows ∧ row.mnemonic = i.mnemonic ∧ encode i &&& row.mask = row.pattern

theorem cls (ign : Nibble) : Statement (.cls ign) :=
  ⟨⟨.cls, 0xF0FF, 0x00E0⟩, by decide, rfl, by simp only [encode, and_mask_byte]; simp; rfl⟩
theorem ret (ign : Nibble) : Statement (.ret ign) :=
  ⟨⟨.ret, 0xF0FF, 0x00EE⟩, by decide, rfl, by simp only [encode, and_mask_byte]; simp; rfl⟩
theorem jp (nnn : Addr12) : Statement (.jp nnn) :=
  ⟨⟨.jp, 0xF000, 0x1000⟩, by decide, rfl, by simp only [encode, and_mask_family]; simp; rfl⟩
theorem call (nnn : Addr12) : Statement (.call nnn) :=
  ⟨⟨.call, 0xF000, 0x2000⟩, by decide, rfl, by simp only [encode, and_mask_family]; simp; rfl⟩
theorem seImm (x : Reg) (nn : Byte) : Statement (.seImm x nn) :=
  ⟨⟨.seImm, 0xF000, 0x3000⟩, by decide, rfl, by simp only [encode, and_mask_family]; simp; rfl⟩
theorem sneImm (x : Reg) (nn : Byte) : Statement (.sneImm x nn) :=
  ⟨⟨.sneImm, 0xF000, 0x4000⟩, by decide, rfl, by simp only [encode, and_mask_family]; simp; rfl⟩
theorem seReg (x : Reg) (y : Reg) (ign : Nibble) : Statement (.seReg x y ign) :=
  ⟨⟨.seReg, 0xF000, 0x5000⟩, by decide, rfl, by simp only [encode, and_mask_family]; simp; rfl⟩
theorem ldImm (x : Reg) (nn : Byte) : Statement (.ldImm x nn) :=
  ⟨⟨.ldImm, 0xF000, 0x6000⟩, by decide, rfl, by simp only [encode, and_mask_family]; simp; rfl⟩
theorem addImm (x : Reg) (nn : Byte) : Statement (.addImm x nn) :=
  ⟨⟨.addImm, 0xF000, 0x7000⟩, by decide, rfl, by simp only [encode, and_mask_family]; simp; rfl⟩
theorem ldReg (x : Reg) (y : Reg) : Statement (.ldReg x y) :=
  ⟨⟨.ldReg, 0xF00F, 0x8000⟩, by decide, rfl, by simp only [encode, and_mask_nibble]; simp; rfl⟩
theorem orReg (x : Reg) (y : Reg) : Statement (.orReg x y) :=
  ⟨⟨.orReg, 0xF00F, 0x8001⟩, by decide, rfl, by simp only [encode, and_mask_nibble]; simp; rfl⟩
theorem andReg (x : Reg) (y : Reg) : Statement (.andReg x y) :=
  ⟨⟨.andReg, 0xF00F, 0x8002⟩, by decide, rfl, by simp only [encode, and_mask_nibble]; simp; rfl⟩
theorem xorReg (x : Reg) (y : Reg) : Statement (.xorReg x y) :=
  ⟨⟨.xorReg, 0xF00F, 0x8003⟩, by decide, rfl, by simp only [encode, and_mask_nibble]; simp; rfl⟩
theorem addReg (x : Reg) (y : Reg) : Statement (.addReg x y) :=
  ⟨⟨.addReg, 0xF00F, 0x8004⟩, by decide, rfl, by simp only [encode, and_mask_nibble]; simp; rfl⟩
theorem subReg (x : Reg) (y : Reg) : Statement (.subReg x y) :=
  ⟨⟨.subReg, 0xF00F, 0x8005⟩, by decide, rfl, by simp only [encode, and_mask_nibble]; simp; rfl⟩
theorem shr (x : Reg) (ign : Nibble) : Statement (.shr x ign) :=
  ⟨⟨.shr, 0xF00F, 0x8006⟩, by decide, rfl, by simp only [encode, and_mask_nibble]; simp; rfl⟩
theorem subnReg (x : Reg) (y : Reg) : Statement (.subnReg x y) :=
  ⟨⟨.subnReg, 0xF00F, 0x8007⟩, by decide, rfl, by simp only [encode, and_mask_nibble]; simp; rfl⟩
theorem shl (x : Reg) (ign : Nibble) : Statement (.shl x ign) :=
  ⟨⟨.shl, 0xF00F, 0x800E⟩, by decide, rfl, by simp only [encode, and_mask_nibble]; simp; rfl⟩
theorem sneReg (x : Reg) (y : Reg) (ign : Nibble) : Statement (.sneReg x y ign) :=
  ⟨⟨.sneReg, 0xF000, 0x9000⟩, by decide, rfl, by simp only [encode, and_mask_family]; simp; rfl⟩
theorem ldI (nnn : Addr12) : Statement (.ldI nnn) :=
  ⟨⟨.ldI, 0xF000, 0xA000⟩, by decide, rfl, by simp only [encode, and_mask_family]; simp; rfl⟩
theorem jpV0 (nnn : Addr12) : Statement (.jpV0 nnn) :=
  ⟨⟨.jpV0, 0xF000, 0xB000⟩, by decide, rfl, by simp only [encode, and_mask_family]; simp; rfl⟩
theorem rnd (x : Reg) (nn : Byte) : Statement (.rnd x nn) :=
  ⟨⟨.rnd, 0xF000, 0xC000⟩, by decide, rfl, by simp only [encode, and_mask_family]; simp; rfl⟩
theorem drw (x : Reg) (y : Reg) (n : Nibble) : Statement (.drw x y n) :=
  ⟨⟨.drw, 0xF000, 0xD000⟩, by decide, rfl, by simp only [encode, and_mask_family]; simp; rfl⟩
theorem skp (x : Reg) : Statement (.skp x) :=
  ⟨⟨.skp, 0xF0FF, 0xE09E⟩, by decide, rfl, by simp only [encode, and_mask_byte]; simp; rfl⟩
theorem sknp (x : Reg) : Statement (.sknp x) :=
  ⟨⟨.sknp, 0xF0FF, 0xE0A1⟩, by decide, rfl, by simp only [encode, and_mask_byte]; simp; rfl⟩
theorem ldRegDt (x : Reg) : Statement (.ldRegDt x) :=
  ⟨⟨.ldRegDt, 0xF0FF, 0xF007⟩, by decide, rfl, by simp only [encode, and_mask_byte]; simp; rfl⟩
theorem ldKey (x : Reg) : Statement (.ldKey x) :=
  ⟨⟨.ldKey, 0xF0FF, 0xF00A⟩, by decide, rfl, by simp only [encode, and_mask_byte]; simp; rfl⟩
theorem ldDtReg (x : Reg) : Statement (.ldDtReg x) :=
  ⟨⟨.ldDtReg, 0xF0FF, 0xF015⟩, by decide, rfl, by simp only [encode, and_mask_byte]; simp; rfl⟩
theorem ldStReg (x : Reg) : Statement (.ldStReg x) :=
  ⟨⟨.ldStReg, 0xF0FF, 0xF018⟩, by decide, rfl, by simp only [encode, and_mask_byte]; simp; rfl⟩
theorem addI (x : Reg) : Statement (.addI x) :=
  ⟨⟨.addI, 0xF0FF, 0xF01E⟩, by decide, rfl, by simp only [encode, and_mask_byte]; simp; rfl⟩
theorem ldFont (x : Reg) : Statement (.ldFont x) :=
  ⟨⟨.ldFont, 0xF0FF, 0xF029⟩, by decide, rfl, by simp only [encode, and_mask_byte]; simp; rfl⟩
theorem ldBcd (x : Reg) : Statement (.ldBcd x) :=
  ⟨⟨.ldBcd, 0xF0FF, 0xF033⟩, by decide, rfl, by simp only [encode, and_mask_byte]; simp; rfl⟩
theorem stRegs (x : Reg) : Statement (.stRegs x) :=
  ⟨⟨.stRegs, 0xF0FF, 0xF055⟩, by decide, rfl, by simp only [encode, and_mask_byte]; simp; rfl⟩
theorem ldRegs (x : Reg) : Statement (.ldRegs x) :=
  ⟨⟨.ldRegs, 0xF0FF, 0xF065⟩, by decide, rfl, by simp only [encode, and_mask_byte]; simp; rfl⟩

end Sys2Proof.Laws.MatchesRow
end

