-- ==== Sys2Proof/Tests/Slice0.lean ====
section
/-! SUPPORT. Tests and witnesses. The expected values come from spec/95_test_vectors.md (vectors ENC, CTL, ALU, VFA,
IDX, DSP, KEY, TMR, RST) and, for words, from the patterns of spec/30_encoding.md R67. A `test_witness_…` theorem
shows that something meets the hypotheses of the obligation it is named after, clause by clause. -/

namespace Sys2Proof.Machine.Tests

/-! ### Helpers -/

/-- The answer is a next state with the property. -/
def goes (r : Result) (p : State → Bool) : Bool :=
  match r with
  | .next t => p t
  | .fault _ => false
  | .refused _ => false

/-- The state after reset in the execute phase: `pc` is A + 2 with A = 0x200. -/
def start : State := { State.reset with pc := 0x202 }

/-- The start with two registers set. -/
def regs2 (x : Reg) (a : Byte) (y : Reg) (b : Byte) : State := (start.setReg x a).setReg y b

/-- The start with I and bytes from I on set. -/
def bytesAt (i : Word) (bytes : List Byte) : State :=
  { start with i := i, mem := writeCells [] i.toNat bytes }

/-- A machine after reset with a word at an address and `pc` there. -/
def placed (a : Word) (w : Word) : State := (State.reset.setPc a).placeWord w

/-- A key snapshot with one key pressed. -/
def pressed (k : Fin 16) : KeySnapshot := StepInputs.idle.key.set k true

/-- The start with inputs. -/
def given (k : Fin 16) (rand8 : Byte) : State := start.withInputs (pressed k) rand8

/-- One step with idle inputs. -/
def stepIdle (s : State) : Result := act (.step StepInputs.idle.key 0) s

/-- A halted state. -/
def halted : State := start.raise .stackUnderflow 0x00EE

/-- A waiting state. -/
def waiting : State := { start with latch := { active := true, target := 3 }, dt := 5 }

/-- The default font as the 80 bytes that `load` takes. -/
def fontVector : Vector Byte 80 := ⟨font.toArray, rfl⟩

/-! ### WellFormed: each check refuses an ill-formed term -/

theorem test_register_16_refused : (Operand.reg 16).wellFormed = false ∧ (Operand.reg 15).wellFormed = true := by decide
theorem test_byte_256_refused : (Operand.byte 256).wellFormed = false ∧ (Operand.byte 255).wellFormed = true := by decide
theorem test_addr_4096_refused : (Operand.addr 4096).wellFormed = false ∧ (Operand.addr 4095).wellFormed = true := by
  decide
theorem test_nibble_16_refused : (Operand.nibble 16).wellFormed = false ∧ (Operand.nibble 15).wellFormed = true := by
  decide
theorem test_image_3585_refused :
    imageFits (List.replicate 3585 0) = false ∧ imageFits (List.replicate 3584 0) = true := by
  unfold imageFits
  rw [List.length_replicate, List.length_replicate]
  decide

/-! ### Decoding and encoding: one word per row of R67, written from its pattern -/

/-- The word decodes to the instruction and is its encoding. -/
def stands (w : Word) (i : Instr) : Bool := decodeTableWord 16 w.toNat == some i && encode i == w

theorem test_decode_family0 : (stands 0x00E0 (.cls 0) && stands 0x05E0 (.cls 5) && stands 0x00EE (.ret 0)
    && stands 0x0FEE (.ret 15)) = true := by decide
theorem test_decode_jumps : (stands 0x1ABC (.jp 0xABC) && stands 0x220A (.call 0x20A)
    && stands 0xA300 (.ldI 0x300) && stands 0xB5FF (.jpV0 0x5FF)) = true := by decide
theorem test_decode_skips : (stands 0x3233 (.seImm 2 0x33) && stands 0x4233 (.sneImm 2 0x33)
    && stands 0x5120 (.seReg 1 2 0) && stands 0x512F (.seReg 1 2 15) && stands 0x9128 (.sneReg 1 2 8)) = true := by
  decide
theorem test_decode_immediates : (stands 0x6A05 (.ldImm 10 5) && stands 0x7301 (.addImm 3 1)
    && stands 0xC3F0 (.rnd 3 0xF0)) = true := by decide
theorem test_decode_family8 : (stands 0x8120 (.ldReg 1 2) && stands 0x8121 (.orReg 1 2) && stands 0x8122 (.andReg 1 2)
    && stands 0x8123 (.xorReg 1 2) && stands 0x8124 (.addReg 1 2) && stands 0x8125 (.subReg 1 2)
    && stands 0x85F6 (.shr 5 15) && stands 0x8127 (.subnReg 1 2) && stands 0x845E (.shl 4 5)) = true := by decide
theorem test_decode_draw_keys : (stands 0xD015 (.drw 0 1 5) && stands 0xE39E (.skp 3)
    && stands 0xE3A1 (.sknp 3)) = true := by decide
theorem test_decode_familyF : (stands 0xF407 (.ldRegDt 4) && stands 0xF30A (.ldKey 3) && stands 0xF315 (.ldDtReg 3)
    && stands 0xF318 (.ldStReg 3) && stands 0xF21E (.addI 2) && stands 0xFA29 (.ldFont 10) && stands 0xF033 (.ldBcd 0)
    && stands 0xF255 (.stRegs 2) && stands 0xFF65 (.ldRegs 15)) = true := by decide

/-- DRW V0, V1, 5, bit by bit: 1101 for the family, 0000 for X, 0001 for Y, 0101 for N. -/
theorem test_decode_bit_by_bit : decodeTableWord 16 0b1101000000010101 = some (.drw 0 1 5) := by decide

/-- ENC-3 and R65: illegal words, the last two of families 0 and E. -/
theorem test_illegal_words : ([0x8008, 0x800F, 0xE000, 0xE19F, 0xF000, 0xF0FF, 0x0000, 0x00EF].all
    (fun w => decodeTableWord 16 w == none)) = true := by decide

/-- Bits above the table's width are zeros: with 8 bits the first nibbles are 0. -/
theorem test_table_word_is_cut : decodeTableWord 8 0xA2E0 = some (.cls 0) := by decide

theorem test_truncated_bytes_refused : decode [0x00] = .error .truncated := rfl

/-- R68 and R69: an ignored nibble assembles as 0, an operand that does not fit is refused, DB places bytes. -/
theorem test_assembler :
    assembleLines [.instr .seReg [.reg 1, .reg 2], .db [0xC3, 0xFF]] = .ok [0x51, 0x20, 0xC3, 0xFF] ∧
    assembleLine (.instr .ldImm [.reg 16, .byte 0]) = .error .operandDoesNotFit ∧
    assembleLine (.db [256]) = .error .operandDoesNotFit ∧
    assembleLine (.instr .cls [.reg 1]) = .error .wrongOperands := ⟨rfl, rfl, rfl, rfl⟩

/-! ### One step of each instruction -/

/-- DSP-1, ENC-4. -/
theorem test_cls : goes (exec (.cls 5) ((start.setPixel 5 5 true).setReg VF 3))
    (fun t => !t.pixel 5 5 && t.reg VF == 3) = true := by decide
/-- CTL-3, ENC-5. -/
theorem test_ret : goes (exec (.ret 15) { start with stack := [0x206, 0x300] })
    (fun t => t.pc == 0x300 && t.stack == [0x206]) = true := by decide
/-- CTL-4. -/
theorem test_ret_empty : goes (exec (.ret 0) start) (fun t => t.status == .halted && t.pc == 0x202 &&
    t.fault == some { condition := .stackUnderflow, word := some 0x00EE, addr := 0x200 }) = true := by decide
/-- CTL-1. -/
theorem test_jp : goes (exec (.jp 0xABC) start) (fun t => t.pc == 0xABC) = true := by decide
/-- CTL-2. -/
theorem test_call : goes (exec (.call 0x20A) { start with pc := 0x206 })
    (fun t => t.pc == 0x20A && t.stack == [0x206]) = true := by decide
/-- CTL-5. -/
theorem test_call_overflow : (let t := callUnder (some 2) 0x300 { start with stack := [0x202, 0x204] }
    t.stack == [0x202, 0x204] && t.pc == 0x202 &&
      t.fault == some { condition := .stackOverflow, word := some 0x2300, addr := 0x200 }) = true := by decide
/-- CTL-8, CTL-9. -/
theorem test_jpV0 : (goes (exec (.jpV0 0x5FF) (regs2 0 0 5 1)) (fun t => t.pc == 0x5FF)
    && goes (exec (.jpV0 0xFFF) (start.setReg 0 0xFF)) (fun t => t.pc.toNat == 4350)) = true := by decide
/-- CTL-11, CTL-16. -/
theorem test_seImm : (goes (exec (.seImm 2 0x33) (start.setReg 2 0x33)) (·.pc == 0x204)
    && goes (exec (.seImm 2 0x34) (start.setReg 2 0x33)) (·.pc == 0x202)
    && goes (exec (.seImm 15 1) (start.setReg VF 1)) (·.pc == 0x204)) = true := by decide
/-- CTL-12. -/
theorem test_sneImm : (goes (exec (.sneImm 2 0x33) (start.setReg 2 0x33)) (·.pc == 0x202)
    && goes (exec (.sneImm 2 0x34) (start.setReg 2 0x33)) (·.pc == 0x204)) = true := by decide
/-- CTL-13, CTL-14, ENC-10. -/
theorem test_seReg : (goes (exec (.seReg 1 1 0) start) (·.pc == 0x204)
    && goes (exec (.seReg 1 2 0) (regs2 1 7 2 8)) (·.pc == 0x202)
    && goes (exec (.seReg 1 2 15) (regs2 1 7 2 7)) (·.pc == 0x204)) = true := by decide
/-- CTL-14, CTL-15. -/
theorem test_sneReg : (goes (exec (.sneReg 1 2 0) (regs2 1 7 2 8)) (·.pc == 0x204)
    && goes (exec (.sneReg 1 1 0) start) (·.pc == 0x202)) = true := by decide
/-- ALU-1. -/
theorem test_ldImm : goes (exec (.ldImm 10 5) start) (fun t => t.reg 10 == 5 && t.pc == 0x202) = true := by decide
/-- ALU-2 to ALU-4. -/
theorem test_addImm : (goes (exec (.addImm 3 1) (regs2 3 0xFF 15 7)) (fun t => t.reg 3 == 0 && t.reg VF == 7)
    && goes (exec (.addImm 15 1) (start.setReg VF 0xFF)) (fun t => t.reg VF == 0)
    && goes (exec (.addImm 3 0xFF) (start.setReg 3 0x10)) (fun t => t.reg 3 == 0x0F)) = true := by decide
/-- ALU-5. -/
theorem test_ldReg : goes (exec (.ldReg 1 2) (regs2 1 3 2 9)) (fun t => t.reg 1 == 9 && t.reg 2 == 9) = true := by
  decide
/-- ALU-6. -/
theorem test_orReg : goes (exec (.orReg 1 2) ((regs2 1 0x0F 2 0xF0).setReg VF 5))
    (fun t => t.reg 1 == 0xFF && t.reg VF == 5) = true := by decide
/-- ALU-7. -/
theorem test_andReg : goes (exec (.andReg 1 2) (regs2 1 0x3C 2 0x0F)) (fun t => t.reg 1 == 0x0C) = true := by decide
/-- ALU-8, ALU-9. -/
theorem test_xorReg : (goes (exec (.xorReg 1 2) (regs2 1 0x3C 2 0x0F)) (fun t => t.reg 1 == 0x33)
    && goes (exec (.xorReg 1 1) (start.setReg 1 0x3C)) (fun t => t.reg 1 == 0)) = true := by decide
/-- ALU-10, ALU-11, ALU-13, ALU-14. -/
theorem test_addReg : (goes (exec (.addReg 1 2) (regs2 1 0xFF 2 1)) (fun t => t.reg 1 == 0 && t.reg VF == 1)
    && goes (exec (.addReg 1 2) (regs2 1 0x80 2 0x7F)) (fun t => t.reg 1 == 0xFF && t.reg VF == 0)
    && goes (exec (.addReg 1 2) (start.setReg VF 1)) (fun t => t.reg 1 == 0 && t.reg VF == 0)
    && goes (exec (.addReg 1 1) (start.setReg 1 0x81)) (fun t => t.reg 1 == 2 && t.reg VF == 1)) = true := by decide
/-- VFA-1, VFA-6, VFA-9. -/
theorem test_addReg_alias :
    (let add := fun (v : VfAlias) (x y : Reg) (s : State) => s.flagOp2 v x y carryFlag (fun a b => a + b)
    (add .snapshot 15 0 (regs2 15 0xFF 0 1)).reg VF == 0 && (add .sequential 15 0 (regs2 15 0xFF 0 1)).reg VF == 2
    && (add .snapshot 1 15 (regs2 1 0x10 15 0xFF)).reg 1 == 0x0F
    && (add .sequential 1 15 (regs2 1 0x10 15 0xFF)).reg 1 == 0x11
    && (add .sequential 15 15 (start.setReg VF 0x80)).reg VF == 2) = true := by decide
/-- ALU-15 to ALU-18. -/
theorem test_subReg : (goes (exec (.subReg 1 2) (regs2 1 5 2 3)) (fun t => t.reg 1 == 2 && t.reg VF == 1)
    && goes (exec (.subReg 1 2) (regs2 1 3 2 5)) (fun t => t.reg 1 == 0xFE && t.reg VF == 0)
    && goes (exec (.subReg 1 2) (regs2 1 4 2 4)) (fun t => t.reg 1 == 0 && t.reg VF == 0)
    && goes (exec (.subReg 1 2) (regs2 1 0 2 0xFF)) (fun t => t.reg 1 == 1 && t.reg VF == 0)) = true := by decide
/-- VFA-2, VFA-7. -/
theorem test_subReg_alias :
    (let sub := fun (v : VfAlias) (x y : Reg) (s : State) => s.flagOp2 v x y greaterFlag (fun a b => a - b)
    (sub .snapshot 15 1 (regs2 15 5 1 3)).reg VF == 2 && (sub .sequential 15 1 (regs2 15 5 1 3)).reg VF == 0xFE
    && (sub .snapshot 1 15 (regs2 1 5 15 3)).reg 1 == 2
    && (sub .sequential 1 15 (regs2 1 5 15 3)).reg 1 == 4) = true := by decide
/-- ALU-20, ALU-21, ENC-11. -/
theorem test_shr : (goes (exec (.shr 4 5) (regs2 4 5 5 0xAA)) (fun t => t.reg 4 == 2 && t.reg VF == 1 && t.reg 5 == 0xAA)
    && goes (exec (.shr 4 0) (start.setReg 4 0x80)) (fun t => t.reg 4 == 0x40 && t.reg VF == 0)
    && goes (exec (.shr 5 15) (start.setReg 5 0x0F)) (fun t => t.reg 5 == 7 && t.reg VF == 1)) = true := by decide
/-- VFA-3. -/
theorem test_shr_alias :
    (let shr := fun (v : VfAlias) (s : State) => s.flagOp1 v 15 lowBitFlag (fun a => a >>> 1)
    (shr .snapshot (start.setReg VF 3)).reg VF == 1 && (shr .sequential (start.setReg VF 3)).reg VF == 0) = true := by
  decide
/-- ALU-22 to ALU-25. -/
theorem test_subnReg : (goes (exec (.subnReg 1 2) (regs2 1 3 2 5)) (fun t => t.reg 1 == 2 && t.reg VF == 1)
    && goes (exec (.subnReg 1 2) (regs2 1 5 2 3)) (fun t => t.reg 1 == 0xFE && t.reg VF == 0)
    && goes (exec (.subnReg 1 2) (regs2 1 4 2 4)) (fun t => t.reg 1 == 0 && t.reg VF == 0)
    && goes (exec (.subnReg 1 1) (start.setReg 1 9)) (fun t => t.reg 1 == 0 && t.reg VF == 0)) = true := by decide
/-- VFA-4, VFA-8. -/
theorem test_subnReg_alias :
    (let subn := fun (v : VfAlias) (x y : Reg) (s : State) =>
      s.flagOp2 v x y (fun a b => greaterFlag b a) (fun a b => b - a)
    (subn .snapshot 15 1 (regs2 15 3 1 5)).reg VF == 2 && (subn .sequential 15 1 (regs2 15 3 1 5)).reg VF == 4
    && (subn .snapshot 1 15 (regs2 1 3 15 5)).reg 1 == 2
    && (subn .sequential 1 15 (regs2 1 3 15 5)).reg 1 == 0xFE) = true := by decide
/-- ALU-26, ALU-27. -/
theorem test_shl : (goes (exec (.shl 4 5) (regs2 4 0x81 5 0x55))
      (fun t => t.reg 4 == 2 && t.reg VF == 1 && t.reg 5 == 0x55)
    && goes (exec (.shl 4 0) (start.setReg 4 0x7F)) (fun t => t.reg 4 == 0xFE && t.reg VF == 0)) = true := by decide
/-- VFA-5. -/
theorem test_shl_alias :
    (let shl := fun (v : VfAlias) (s : State) => s.flagOp1 v 15 highBitFlag (fun a => a <<< 1)
    (shl .snapshot (start.setReg VF 0xC0)).reg VF == 0x80
    && (shl .sequential (start.setReg VF 0xC0)).reg VF == 2) = true := by decide
/-- ALU-28 to ALU-30 with `RAND_MASK = n`, and ALU-31. -/
theorem test_rnd : (goes (exec (.rnd 3 0x0F) (given 0 0xB7)) (fun t => t.reg 3 == 0x07)
    && goes (exec (.rnd 3 0xFF) (given 0 0xB7)) (fun t => t.reg 3 == 0x07)
    && goes (exec (.rnd 3 0xF0) (given 0 0xB7)) (fun t => t.reg 3 == 0)
    && goes (exec (.rnd 3 0) (given 0 0xFF)) (fun t => t.reg 3 == 0)) = true := by decide
/-- ALU-29, ALU-30 with `RAND_MASK = nn`. -/
theorem test_rnd_nn : ((rndUnder .nn 3 0xFF (given 0 0xB7)).reg 3 == 0xB7
    && (rndUnder .nn 3 0xF0 (given 0 0xB7)).reg 3 == 0xB0) = true := by decide
/-- IDX-1. -/
theorem test_ldI : goes (exec (.ldI 0x300) start) (fun t => t.i == 0x300) = true := by decide
/-- IDX-2 to IDX-4. -/
theorem test_addI : (goes (exec (.addI 2) { regs2 2 0x10 15 9 with i := 0x300 }) (fun t => t.i == 0x310 && t.reg VF == 9)
    && goes (exec (.addI 0) { start.setReg 0 1 with i := 0xFFFF }) (fun t => t.i == 0)
    && goes (exec (.addI 0) { start.setReg 0 1 with i := 0x0FFF }) (fun t => t.i == 0x1000)) = true := by decide
/-- IDX-5, IDX-7. -/
theorem test_ldFont : (goes (exec (.ldFont 0) (start.setReg 0 0x0A)) (fun t => t.i.toNat == 50)
    && goes (exec (.ldFont 0) (start.setReg 0 0xFF)) (fun t => t.i.toNat == 1275)) = true := by decide
/-- IDX-8, IDX-10. -/
theorem test_ldBcd : (goes (exec (.ldBcd 0) { start.setReg 0 234 with i := 0x300 })
      (fun t => t.byte 0x300 == 2 && t.byte 0x301 == 3 && t.byte 0x302 == 4 && t.i == 0x300)
    && goes (exec (.ldBcd 0) { start.setReg 0 123 with i := 0xFFD })
      (fun t => t.byte 0xFFD == 1 && t.byte 0xFFE == 2 && t.byte 0xFFF == 3)) = true := by decide
/-- IDX-11. -/
theorem test_ldBcd_range : goes (exec (.ldBcd 0) { start.setReg 0 123 with i := 0xFFE }) (fun t => t.mem == [] &&
    t.fault == some { condition := .memOutOfRange 4096, word := some 0xF033, addr := 0x200 }) = true := by decide
/-- IDX-13, IDX-14. -/
theorem test_stRegs : (goes (exec (.stRegs 0) { regs2 0 0xAB 1 0xCD with i := 0x310 })
      (fun t => t.byte 0x310 == 0xAB && t.byte 0x311 == 0 && t.i == 0x310)
    && goes (exec (.stRegs 15) { regs2 0 7 15 0x0F with i := 0xFF0 })
      (fun t => t.byte 0xFF0 == 7 && t.byte 0xFFF == 0x0F)) = true := by decide
/-- IDX-15. -/
theorem test_stRegs_range : goes (exec (.stRegs 15) { start.setReg 0 1 with i := 0xFF1 }) (fun t => t.mem == [] &&
    t.fault == some { condition := .memOutOfRange 4096, word := some 0xFF55, addr := 0x200 }) = true := by decide
/-- IDX-16, IDX-17. -/
theorem test_ldRegs : (goes (exec (.ldRegs 2) (bytesAt 0x300 [2, 3, 4, 5]))
      (fun t => t.reg 0 == 2 && t.reg 2 == 4 && t.reg 3 == 0 && t.i == 0x300)
    && goes (exec (.ldRegs 4) start) (fun t => t.reg 0 == 0xF0 && t.reg 1 == 0x90 && t.reg 4 == 0xF0)) = true := by
  decide
/-- IDX-19. -/
theorem test_ldRegs_range : goes (exec (.ldRegs 0) { start with i := 0x1000 }) (fun t => t.reg 0 == 0 &&
    t.fault == some { condition := .memOutOfRange 0x1000, word := some 0xF065, addr := 0x200 }) = true := by decide
/-- DSP-3, DSP-4, DSP-12: the origin is taken modulo the size and read before VF is cleared, and the sprite is clipped
at the right edge. -/
theorem test_drw : (goes (exec (.drw 0 1 1) (((bytesAt 0x300 [0x80]).setReg 0 70).setReg 1 40))
      (fun t => t.pixel 6 8 && !t.pixel 7 8 && t.reg VF == 0)
    && goes (exec (.drw 0 1 1) ((bytesAt 0x300 [0xFF]).setReg 0 62))
      (fun t => t.pixel 62 0 && t.pixel 63 0 && !t.pixel 0 0 && !t.pixel 0 1)
    && goes (exec (.drw 15 1 1) ((bytesAt 0x300 [0x80]).setReg VF 5))
      (fun t => t.pixel 5 0 && !t.pixel 0 0 && t.reg VF == 0)) = true := by decide
/-- DSP-13, DSP-10, DSP-11: collision, the read of the first clipped row, and none of the second. -/
theorem test_drw_collision_and_range :
    (goes (exec (.drw 0 1 1) ((bytesAt 0x300 [0xC0]).setPixel 1 0 true))
      (fun t => t.pixel 0 0 && !t.pixel 1 0 && t.reg VF == 1)
    && goes (exec (.drw 0 1 2) ((bytesAt 0xFFF [0x80]).setReg 1 31)) (fun t => t.pixel 0 31 &&
      t.fault == some { condition := .memOutOfRange 0x1000, word := some 0xD012, addr := 0x200 })
    && goes (exec (.drw 0 1 3) ((bytesAt 0xFFE [0x80, 0x80]).setReg 1 31))
      (fun t => t.pixel 0 31 && t.fault == none && t.reg VF == 0)) = true := by decide
/-- KEY-1, KEY-3. -/
theorem test_skp : (goes (exec (.skp 3) ((given 7 0).setReg 3 7)) (·.pc == 0x204)
    && goes (exec (.skp 3) ((given 6 0).setReg 3 7)) (·.pc == 0x202)
    && goes (exec (.skp 3) (start.setReg 3 16)) (fun t => t.fault ==
      some { condition := .keyIndexOutOfRange 16, word := some 0xE39E, addr := 0x200 })) = true := by decide
/-- KEY-2, KEY-4. -/
theorem test_sknp : (goes (exec (.sknp 3) ((given 7 0).setReg 3 7)) (·.pc == 0x202)
    && goes (exec (.sknp 3) ((given 6 0).setReg 3 7)) (·.pc == 0x204)
    && goes (exec (.sknp 3) (start.setReg 3 0xFF)) (fun t => t.fault ==
      some { condition := .keyIndexOutOfRange 255, word := some 0xE3A1, addr := 0x200 })) = true := by decide
/-- TMR-2. -/
theorem test_ldRegDt : goes (exec (.ldRegDt 4) { start with dt := 0x3C, st := 7 })
    (fun t => t.reg 4 == 0x3C && t.dt == 0x3C) = true := by decide
/-- KEY-5. -/
theorem test_ldKey : goes (exec (.ldKey 3) (start.setReg 3 8)) (fun t => t.status == .waiting && t.pc == 0x202 &&
    t.latch == { active := true, target := 3 } && t.reg 3 == 8) = true := by decide
/-- TMR-1. -/
theorem test_ldDtReg : goes (exec (.ldDtReg 3) (start.setReg 3 7)) (fun t => t.dt == 7 && t.st == 0) = true := by decide
/-- TMR-3. -/
theorem test_ldStReg : goes (exec (.ldStReg 3) (start.setReg 3 0x10)) (fun t => t.st == 0x10 && t.dt == 0) = true := by
  decide

/-! ### Fetch, host actions, reset -/

/-- ENC-1, ENC-8: big-endian, at any alignment. -/
theorem test_fetch : (goes (stepIdle (placed 0x200 0x612A)) (fun t => t.reg 1 == 0x2A && t.pc == 0x202)
    && goes (stepIdle (placed 0x201 0x6007)) (fun t => t.reg 0 == 7 && t.pc == 0x203)) = true := by decide
/-- ENC-6, ENC-7. -/
theorem test_fetch_range : (goes (stepIdle { State.reset with pc := 0xFFF }) (fun t => t.pc == 0xFFF &&
      t.fault == some { condition := .memOutOfRange 4096, word := none, addr := 0xFFF })
    && goes (stepIdle { State.reset with pc := 0x1001 }) (fun t =>
      t.fault == some { condition := .memOutOfRange 0x1001, word := none, addr := 0x1001 })) = true := by decide
/-- ENC-2, RST-4. -/
theorem test_illegal : goes (stepIdle State.reset) (fun t => t.pc == 0x202 && t.status == .halted &&
    t.fault == some { condition := .illegalInstruction, word := some 0, addr := 0x200 }) = true := by decide
/-- ENC-12, KEY-8, TMR-7. -/
theorem test_not_enabled : stepIdle waiting = .fault .stepWhileWaiting ∧
    act (.resume 1) start = .fault .resumeWhileRunning ∧
    act .tick halted = .fault (.halted { condition := .stackUnderflow, word := some 0x00EE, addr := 0x200 }) := ⟨rfl, rfl, rfl⟩
/-- KEY-6. -/
theorem test_resume : goes (act (.resume 9) waiting) (fun t => t.reg 3 == 9 && t.status == .running && t.pc == 0x202 &&
    t.latch == { active := false, target := 3 }) = true := by decide
/-- TMR-4 to TMR-6. -/
theorem test_tick : (goes (act .tick { start with dt := 2 }) (fun t => t.dt == 1 && t.st == 0)
    && goes (act .tick waiting) (fun t => t.dt == 4 && t.status == .waiting)) = true := by decide
/-- RST-1. -/
theorem test_load : goes (load fontVector [0x12, 0x00]) (fun t => t.byte 0x200 == 0x12 && t.byte 0x201 == 0 &&
    t.byte 0 == 0xF0 && t.byte 4 == 0xF0 && t.byte 80 == 0 && t.pc == 0x200) = true := by decide +kernel
/-- A font of the loader's own replaces every byte of the default one. -/
theorem test_load_font : goes (load (Vector.replicate 80 0x11) []) (fun t => t.byte 0 == 0x11 && t.byte 79 == 0x11 &&
    t.byte 80 == 0) = true := by decide +kernel
/-- The next step runs the word placed by `withFetchWord`, from reset and from a waiting state. -/
theorem test_withFetchWord : (goes (step (State.reset.withFetchWord 16 0x6A05)) (fun t => t.reg 10 == 5 && t.pc == 0x202)
    && goes (step (waiting.withFetchWord 16 0x6A05)) (fun t => t.reg 10 == 5 && t.pc == 0x204)) = true := by decide
/-- The host's listed inputs reach the instruction, and the list is consumed. -/
theorem test_listed_step : goes (step { placed 0x200 0xC30F with host := [.step (pressed 1) 0xB7, .tick] })
    (fun t => t.reg 3 == 7 && t.host == [.tick] && t.inputs == StepInputs.idle) = true := by decide
/-- P1: the jump to itself is the end of the run. -/
theorem test_end_of_run : (placed 0x200 0x1200).endOfRun = true ∧ start.endOfRun = false ∧ halted.endOfRun = true := by
  decide
/-- A write of the reset byte removes the cell, so equal memories are equal lists. -/
theorem test_memory_canonical : writeCell (writeCell (writeCell [] 0x300 5) 0x200 1) 0x300 0 = [(0x200, 1)] ∧
    writeCell [] 0 0xF0 = [] ∧ Memory.wf [(0x300, 5), (0x200, 1)] = false ∧ Memory.wf [(0, 0xF0)] = false := by decide

/-! ### Witnesses: something meets the hypotheses of each obligation that has any -/

theorem test_witness_EncodeOfDecodeIsTheWord : decodeWord 0xF0FF = .error .illegalFamilyF ∧
    decodeWord 0xFF65 = .ok (.ldRegs 15) := ⟨rfl, rfl⟩
theorem test_witness_DecoderAgreesWithOpcodeMap :
    (⟨.cls, 0xF0FF, 0x00E0⟩ : OpcodeRow) ∈ opcodeRows ∧ (0x0FE0 : Word) &&& 0xF0FF = 0x00E0 := by decide
theorem test_witness_IgnoredNibblesHaveNoEffect :
    (fieldOp 0x0FE0 = 0x0 ∧ fieldNN 0x0FE0 = 0xE0) ∧ (fieldOp 0x0FEE = 0x0 ∧ fieldNN 0x0FEE = 0xEE) ∧
    fieldOp 0x512F = 0x5 ∧ fieldOp 0x912F = 0x9 ∧ (fieldOp 0x81F6 = 0x8 ∧ fieldN 0x81F6 = 0x6) ∧
    (fieldOp 0x81FE = 0x8 ∧ fieldN 0x81FE = 0xE) ∧ ({ start with stack := [0x206] } : State).stack ≠ [] := by decide
theorem test_witness_AssemblerTakesFittingOperands :
    [Operand.reg 15, Operand.byte 256].all Operand.wellFormed = false ∧
    assemble .ldImm [.reg 15, .byte 255] = .ok (.ldImm 15 255) := ⟨rfl, rfl⟩
/-- At the last address where a word fits. -/
theorem test_witness_FetchIsBigEndian : ({ start with pc := 4094 } : State).pc.toNat + 1 < 4096 := by decide
/-- At the first address where none does. -/
theorem test_witness_FetchPastMemoryIsFatal :
    ({ start with pc := 4095 } : State).status = .running ∧ 4096 ≤ ({ start with pc := 4095 } : State).pc.toNat + 1 := by
  decide
theorem test_witness_IllegalInstructionIsFatal : State.reset.status = .running ∧ State.reset.fetch = .ok 0 ∧
    decodeWord 0 = .error .illegalFamily0 := ⟨rfl, rfl, rfl⟩
/-- The first clause, with the step listed. -/
theorem test_witness_StepRunsTheDecodedInstruction_listed :
    let s := { placed 4094 0x6A05 with host := [.step StepInputs.idle.key 0, .tick] }
    s.fault = none ∧ s.latch.active = false ∧ s.nextAction = .step StepInputs.idle.key 0 ∧ s.pc.toNat + 1 < 4096 ∧
    decode [s.byte s.pc.toNat, s.byte (s.pc.toNat + 1)] = .ok (.ldImm 10 5, []) ∧
    (Instr.ldImm 10 5).wellFormed = true ∧ s.host = .step StepInputs.idle.key 0 :: [.tick] :=
  ⟨rfl, rfl, rfl, by decide, rfl, rfl, rfl⟩
/-- The first clause and the third, with an empty list. -/
theorem test_witness_StepRunsTheDecodedInstruction_free :
    let s := placed 0x200 0x1200
    s.fault = none ∧ s.latch.active = false ∧ s.nextAction = .step (Config.freeKeys 0) (Config.freeRand8 0) ∧
    s.pc.toNat + 1 < 4096 ∧ decode [s.byte s.pc.toNat, s.byte (s.pc.toNat + 1)] = .ok (.jp 0x200, []) ∧
    (Instr.jp 0x200).wellFormed = true ∧ s.host = [] :=
  ⟨rfl, rfl, rfl, by decide, rfl, rfl, rfl⟩
theorem test_witness_TickCountsBothTimersDown : waiting.fault = none ∧ start.fault = none := ⟨rfl, rfl⟩
theorem test_witness_ResumeDeliversTheKey : waiting.status = .waiting := rfl
theorem test_witness_ActionsNotEnabledStop :
    halted.fault = some { condition := .stackUnderflow, word := some 0x00EE, addr := 0x200 } ∧
    waiting.status = .waiting ∧ start.status = .running := ⟨rfl, rfl, rfl⟩

theorem resetInv : State.reset.Inv where
  memory := rfl
  pcRange := by decide
  returns := by intro a h; cases h
  depth := by intro l h; cases h
  idle := rfl
  record := by intro r h; cases h

theorem test_witness_StepKeepsTheInvariant : State.reset.Inv ∧ ∃ t, step State.reset = .next t := ⟨resetInv, _, rfl⟩
theorem test_witness_LoadedMachineMeetsTheInvariant : ∃ t, load fontVector [0x12, 0x00] = .next t := ⟨_, rfl⟩
/-- One for each condition that an instruction can raise with the default parameters. -/
theorem test_witness_InstructionsRaiseOnlyTheirOwnCondition :
    start.fault = none ∧
    (∃ t r, exec (.ret 0) start = .next t ∧ t.fault = some r) ∧
    (∃ t r, exec (.skp 3) (start.setReg 3 16) = .next t ∧ t.fault = some r) ∧
    (∃ t r, exec (.stRegs 1) { start with i := 4095 } = .next t ∧ t.fault = some r) ∧
    (∃ t r, exec (.drw 0 1 1) { start with i := 4096 } = .next t ∧ t.fault = some r) :=
  ⟨rfl, ⟨_, _, rfl, rfl⟩, ⟨_, _, rfl, rfl⟩, ⟨_, _, rfl, rfl⟩, ⟨_, _, rfl, rfl⟩⟩
/-- RST-2: the largest image that fits; the boundaries of the clauses are 79, 80, 511, 512 and the image's end. -/
theorem test_witness_LoadBuildsTheMemoryMap : 512 + (List.replicate 3584 (0 : Byte)).length ≤ 4096 ∧
    512 + ([] : List Byte).length ≤ 4096 := by
  rw [List.length_replicate, List.length_nil]
  decide
theorem test_witness_LoadResetsEverythingElse :
    (∃ t, load fontVector [] = .next t) ∧ fontVector.toList = font := ⟨⟨_, rfl⟩, rfl⟩
/-- RST-3 and RST-2. -/
theorem test_witness_OversizedImageIsRefused : 3584 < (List.replicate 3585 (0 : Byte)).length ∧
    (List.replicate 3584 (0 : Byte)).length ≤ 3584 := by
  rw [List.length_replicate, List.length_replicate]
  decide
theorem test_witness_EmptyImageEndsAtOnce : ∃ t, load fontVector [] = .next t := ⟨_, rfl⟩
theorem test_witness_CanonicalMemoryIsDeterminedByReads :
    Memory.wf [(0x200, 1), (0xFFF, 5)] = true ∧ Memory.wf (writeCell (writeCell [] 0xFFF 5) 0x200 1) = true ∧
    ∀ a, readCell [(0x200, 1), (0xFFF, 5)] a = readCell (writeCell (writeCell [] 0xFFF 5) 0x200 1) a :=
  ⟨rfl, rfl, fun _ => rfl⟩
/-- One below the limit, and at it. -/
theorem test_witness_CallPushesTheReturnAddress :
    ({ start with stack := [0x202] } : State).stack.length < 2 ∧
    2 ≤ ({ start with stack := [0x202, 0x204] } : State).stack.length := by decide
theorem test_witness_ReturnPopsTheStack :
    ({ start with stack := [0x202, 0x204] } : State).stack = [0x202] ++ [0x204] ∧ start.stack = [] := ⟨rfl, rfl⟩

/-- P4's shape: a CALL at 0x204 whose target holds a RET. -/
def callRet : State := (placed 0x204 0x220A).setPc 0x20A |>.placeWord 0x00EE |>.setPc 0x204

theorem test_witness_CallThenReturnResumesAfterTheCall : callRet.status = .running ∧
    callRet.fetch = .ok (encode (.call 0x20A)) ∧
    (callRet.setPc (zext16 (0x20A : Addr12))).fetch = .ok (encode (.ret 0)) := ⟨rfl, rfl, rfl⟩
/-- Both clauses, at the last address where a word fits: a register and a key skip that hold, and one that does not. -/
theorem test_witness_SkippedWordIsNotExamined :
    (let s := placed 4094 0x3000
     s.status = .running ∧ s.fetch = .ok (encode (.seImm 0 0)) ∧
       SkipHolds (.seImm 0 0) (s.withInputs StepInputs.idle.key 0)) ∧
    (let s := placed 4092 0xE09E
     s.status = .running ∧ s.fetch = .ok (encode (.skp 0)) ∧ SkipHolds (.skp 0) (s.withInputs (pressed 0) 0)) ∧
    (let s := placed 4094 0x3001
     s.status = .running ∧ s.fetch = .ok (encode (.seImm 0 1)) ∧
       ¬ SkipHolds (.seImm 0 1) (s.withInputs StepInputs.idle.key 0)) :=
  ⟨⟨rfl, rfl, rfl⟩, ⟨rfl, rfl, ⟨0, rfl, rfl⟩⟩, ⟨rfl, rfl, by show ¬ (0 : Byte) = 1; decide⟩⟩
/-- One for each clause; for the last, a skip that holds, one that does not, and an instruction that is no skip. -/
theorem test_witness_PcAfterEachInstruction :
    (∃ t, exec (.jp 0xFFF) start = .next t ∧ t.fault = start.fault) ∧
    (∃ t, exec (.call 0) start = .next t ∧ t.fault = start.fault) ∧
    (∃ t, exec (.ret 0) { start with stack := [0x206] } = .next t ∧ t.fault = start.fault) ∧
    ({ start with stack := [0x206] } : State).stack.getLast? = some 0x206 ∧
    (∃ t, exec (.jpV0 0xFFF) (start.setReg 0 0xFF) = .next t ∧ t.fault = start.fault) ∧
    (∃ t, exec (.seImm 0 0) start = .next t ∧ t.fault = start.fault ∧ SkipHolds (.seImm 0 0) start) ∧
    (∃ t, exec (.seImm 0 1) start = .next t ∧ t.fault = start.fault ∧ ¬ SkipHolds (.seImm 0 1) start) ∧
    (∃ t, exec (.ldI 1) start = .next t ∧ t.fault = start.fault ∧ ¬ SkipHolds (.ldI 1) start) :=
  ⟨⟨_, rfl, rfl⟩, ⟨_, rfl, rfl⟩, ⟨_, rfl, rfl⟩, rfl, ⟨_, rfl, rfl⟩, ⟨_, rfl, rfl, rfl⟩,
    ⟨_, rfl, rfl, by show ¬ start.reg 0 = 1; decide⟩, ⟨_, rfl, rfl, id⟩⟩
theorem test_witness_JumpToItselfChangesNothing :
    let s := placed 0x200 0x1200
    s.status = .running ∧ s.inputs = StepInputs.idle ∧ s.pc.toNat = (0x200 : Addr12).toNat ∧
      s.fetch = .ok (encode (.jp 0x200)) := ⟨rfl, rfl, rfl, rfl⟩
/-- The premises inside `FlagWritten`: register 15 is no operand, and each value of `VF_ALIAS` (which of the two the
opaque constant is cannot be proved, but it is one of them). -/
theorem test_witness_FlagWritten : (14 : Reg) ≠ VF ∧
    (Config.vfAlias = .snapshot ∨ Config.vfAlias = .sequential) :=
  ⟨by decide, by cases Config.vfAlias <;> simp⟩
/-- The last base in range, the first out of range, and one past memory. -/
theorem test_witness_DecimalDigitsAreStored : ({ start with i := 4093 } : State).i.toNat + 2 < 4096 ∧
    4096 ≤ ({ start with i := 4094 } : State).i.toNat + 2 ∧
    4096 ≤ ({ start with i := 0xFFFF } : State).i.toNat + 2 := by decide
theorem test_witness_RegistersAreStored : ({ start with i := 4080 } : State).i.toNat + (15 : Reg).val < 4096 ∧
    4096 ≤ ({ start with i := 4081 } : State).i.toNat + (15 : Reg).val := by decide
theorem test_witness_RegistersAreLoaded : ({ start with i := 4095 } : State).i.toNat + (0 : Reg).val < 4096 ∧
    4096 ≤ ({ start with i := 4096 } : State).i.toNat + (0 : Reg).val := by decide
theorem test_witness_LoadAfterStoreRestoresRegisters :
    let s := { start.setReg 0 9 with i := 0x300 }
    s.i.toNat + (1 : Reg).val < 4096 ∧ ∃ t, exec (.stRegs 1) s = .next t ∧
      (t.setReg 0 3).i = t.i ∧ ∀ a, (t.setReg 0 3).byte a = t.byte a :=
  ⟨by decide, _, rfl, rfl, fun _ => rfl⟩

/-- One on bit, landing on the pixel in the bottom right corner, with the pixel off and on. -/
def corner (on : Bool) : State := ((bytesAt 0x300 [0x80]).setReg 0 63).setReg 1 31 |>.setPixel 63 31 on

theorem corner_on (b : Bool) : SpriteOn (corner b) 0 1 1 63 31 :=
  ⟨0, 0, by decide, by decide, by show 0x300 < 4096; decide, rfl, rfl, by cases b <;> decide⟩

theorem test_witness_DrawInvertsTheSpritePixels :
    (∃ c r, SpriteOn (corner true) 0 1 1 c r ∧ (corner true).pixel c r = true) ∧
    (¬ ∃ c r, SpriteOn start 0 1 0 c r ∧ start.pixel c r = true) ∧
    SpriteReadFaults { start.setReg 1 31 with i := 4095 } 1 2 ∧
    ¬ SpriteReadFaults { start.setReg 1 31 with i := 4095 } 1 1 := by
  refine ⟨⟨63, 31, corner_on true, by decide⟩, ?_, ⟨1, by decide, by decide, by decide⟩, ?_⟩
  · rintro ⟨c, r, ⟨row, col, h, _⟩, _⟩
    exact absurd h (Nat.not_lt_zero row)
  · rintro ⟨row, h1, _, h3⟩
    have : row < 1 := h1
    have : 4096 ≤ 4095 + row := h3
    omega
/-- The second draw finds the pixel that the first turned on, and finds none after it turned it off. -/
theorem test_witness_DrawingTwiceRestoresTheDisplay :
    (0 : Reg) ≠ VF ∧ (1 : Reg) ≠ VF ∧
    (∃ t u, exec (.drw 0 1 1) (corner false) = .next t ∧ exec (.drw 0 1 1) t = .next u) ∧
    (∃ c r, SpriteOn (corner false) 0 1 1 c r ∧ (corner false).pixel c r = false) ∧
    (¬ ∃ c r, SpriteOn start 0 1 0 c r ∧ start.pixel c r = false) := by
  refine ⟨by decide, by decide, ⟨_, _, rfl, rfl⟩, ⟨63, 31, corner_on false, by decide⟩, ?_⟩
  rintro ⟨c, r, ⟨row, col, h, _⟩, _⟩
  exact absurd h (Nat.not_lt_zero row)
theorem test_witness_DrawStaysInsideItsBox :
    goes (exec (.drw 0 1 1) (corner false)) (fun t => t.pixel 63 31 != (corner false).pixel 63 31) = true := by decide
/-- The last key and the first register value that is none. -/
theorem test_witness_KeySkipsReadTheSnapshot :
    ((start.setReg 3 15).reg 3).toNat = (15 : Fin 16) ∧ 15 < ((start.setReg 3 16).reg 3).toNat := by decide
theorem test_witness_KeyWaitSetsTheLatch : start.fault = none := rfl
theorem test_witness_KeyWaitRunsToItsResumption :
    (placed 0x200 0xF30A).status = .running ∧ (placed 0x200 0xF30A).fetch = .ok (encode (.ldKey 3)) := ⟨rfl, rfl⟩
/-- One for each part that an instruction can change. -/
theorem test_witness_EachPartIsWrittenOnlyByItsInstructions :
    goes (exec (.ldI 1) start) (fun t => t.i != start.i) ∧
    goes (exec (.ldDtReg 0) (start.setReg 0 1)) (fun t => t.dt != start.dt) ∧
    goes (exec (.ldStReg 0) (start.setReg 0 1)) (fun t => t.st != start.st) ∧
    goes (exec (.call 0) start) (fun t => t.stack != start.stack) ∧
    goes (exec (.cls 0) (corner true)) (fun t => t.pixel 63 31 != (corner true).pixel 63 31) ∧
    goes (exec (.ldKey 1) start) (fun t => t.latch != start.latch) ∧
    goes (exec (.ldBcd 0) { start.setReg 0 200 with i := 0x300 }) (fun t => t.byte 0x300 != start.byte 0x300) ∧
    goes (exec (.ret 0) start) (fun t => t.fault != start.fault) := by decide
theorem test_witness_RegistersAreWrittenOnlyAsListed :
    goes (exec (.addReg 0 1) (regs2 0 0xFF 1 2)) (fun t => t.reg VF != 0 && t.reg 0 != 0xFF) = true := by decide
theorem test_witness_StatusStateIsNeverRead : ∃ t, exec (.ldRegDt 0) start = .next t := ⟨_, rfl⟩
/-- An instruction that reads no input, and the two premises for those that do. -/
theorem test_witness_InputsAreReadOnlyByTheirInstructions :
    (∃ t, exec (.jp 0) (given 3 7) = .next t) ∧ (Instr.jp 0).mnemonic ≠ .rnd ∧
    (∃ t, exec (.skp 0) (given 3 7) = .next t) ∧ pressed 3 = (given 3 7).inputs.key ∧
    (∃ t, exec (.rnd 0 15) (given 3 7) = .next t) ∧ (7 : Byte) = (given 3 7).inputs.rand8 :=
  ⟨⟨_, rfl⟩, by decide, ⟨_, rfl⟩, rfl, ⟨_, rfl⟩, rfl⟩

end Sys2Proof.Machine.Tests
end

section
/-! Proofs of the memory after reset (20_memory.md R44, 70_reset_and_hazards.md R134). -/

namespace Sys2Proof.Machine

/-! ### A block of consecutive writes: what a read inside and outside it gives -/

theorem readCell_writeCells_inside (m : Memory) {base : Nat} {vs : List Byte}
    (h : base + vs.length ≤ Config.memSize) {k : Nat} (hk : k < vs.length) :
    readCell (writeCells m base vs) (base + k) = vs[k] := by
  rw [readCell_writeCells m base vs h, dif_pos (by omega)]
  simp only [Nat.add_sub_cancel_left]

theorem readCell_writeCells_outside (m : Memory) {base : Nat} {vs : List Byte}
    (h : base + vs.length ≤ Config.memSize) {a : Nat} (ha : a < base ∨ base + vs.length ≤ a) :
    readCell (writeCells m base vs) a = readCell m a := by
  rw [readCell_writeCells m base vs h, dif_neg (by omega)]

/-! ### The zeroed memory and the memory of a loaded machine -/

/-- No glyph of the font reaches 80, so an unlisted byte there is 0. -/
theorem resetByte_above_font {a : Nat} (h : 80 ≤ a) : resetByte a = 0 :=
  List.getD_eq_default font 0 h

/-- Zeroing must overwrite the font only: every other unlisted byte is 0 already. -/
theorem readCell_zeroMemory (a : Nat) : readCell zeroMemory a = 0 := by
  have hfit : 0 + (List.replicate Config.fontSize (0 : Byte)).length ≤ Config.memSize := by decide
  unfold zeroMemory
  rw [readCell_writeCells _ _ _ hfit]
  split
  · exact List.getElem_replicate _
  · next h => exact resetByte_above_font (by simpa [Config.fontSize] using h)

/-- The font fits into memory (R39, R45). -/
theorem font_fits (fnt : Vector Byte 80) : 0 + fnt.toList.length ≤ Config.memSize := by simp

section
variable {fnt : Vector Byte 80} {image : List Byte} (h : 512 + image.length ≤ 4096)
include h

theorem readCell_loadedMemory_image {k : Nat} (hk : k < image.length) :
    readCell (loadedMemory fnt image) (512 + k) = image[k] :=
  readCell_writeCells_inside _ h hk

/-- Outside the image a loaded memory is the zeroed memory with the font. -/
theorem readCell_loadedMemory_outside {a : Nat} (ha : a < 512 ∨ 512 + image.length ≤ a) :
    readCell (loadedMemory fnt image) a = readCell (writeCells zeroMemory 0 fnt.toList) a :=
  readCell_writeCells_outside _ h ha

theorem readCell_loadedMemory_font (a : Fin 80) : readCell (loadedMemory fnt image) a = fnt[a] := by
  rw [readCell_loadedMemory_outside h (.inl (by omega))]
  simpa using readCell_writeCells_inside zeroMemory (font_fits fnt) (k := a) (by simp)

/-- Neither the font nor the image reaches these addresses. -/
theorem readCell_loadedMemory_zero {a : Nat} (ha : 80 ≤ a) (hi : a < 512 ∨ 512 + image.length ≤ a) :
    readCell (loadedMemory fnt image) a = 0 := by
  rw [readCell_loadedMemory_outside h hi,
    readCell_writeCells_outside _ (font_fits fnt) (.inr (by simpa using ha)), readCell_zeroMemory]

/-- An image that fits is accepted, and only memory depends on it and on the font. -/
theorem load_of_fits : load fnt image = .next { State.reset with mem := loadedMemory fnt image } :=
  if_pos (by simpa [imageFits] using h)

end

/-- Settles O21: each range of R44 is read off the three writes of reset (zeros, font, image), which leave
what lies outside their own range. -/
theorem loadBuildsTheMemoryMap : Obligations.LoadBuildsTheMemoryMap := by
  intro fnt image h
  refine ⟨_, load_of_fits h, ?font, ?gap, ?image, ?rest, rfl⟩
  case font => exact readCell_loadedMemory_font h
  case gap => exact fun a ha hi => readCell_loadedMemory_zero h ha (.inl hi)
  case image => exact fun k => readCell_loadedMemory_image h k.isLt
  case rest => exact fun a ha _ => readCell_loadedMemory_zero h (by omega) (.inr ha)

end Sys2Proof.Machine
end

section
/-! Proofs of the field positions (30_encoding.md R57). -/

namespace Sys2Proof

/-! ### The overlapping fields: each wider view is made of the narrower ones -/

/-- `op` and `NNN` share the word between them. -/
theorem toNat_eq_fieldOp_fieldNNN (w : Word) : w.toNat = (fieldOp w).toNat * 4096 + (fieldNNN w).toNat := by
  rw [fieldOp_toNat, fieldNNN_toNat]
  exact (Nat.div_add_mod' w.toNat 4096).symm

theorem fieldNN_eq_fieldY_fieldN (w : Word) :
    (fieldNN w).toNat = (fieldY w).toNat * 16 + (fieldN w).toNat := by
  rw [fieldNN_toNat, fieldY_toNat, fieldN_toNat]
  omega

theorem fieldNNN_eq_fieldX_fieldNN (w : Word) :
    (fieldNNN w).toNat = (fieldX w).toNat * 256 + (fieldNN w).toNat := by
  rw [fieldNNN_toNat, fieldX_toNat, fieldNN_toNat]
  omega

namespace Machine

/-- Settles O1: the word splits into `op` and `NNN`, `NNN` into `X` and `NN`, and `NN` into `Y` and `N`. -/
theorem fieldsAreViewsOfOneWord : Obligations.FieldsAreViewsOfOneWord := by
  intro w
  have hNN := fieldNN_eq_fieldY_fieldN w
  have hNNN : (fieldNNN w).toNat = (fieldX w).toNat * 256 + (fieldY w).toNat * 16 + (fieldN w).toNat := by
    rw [fieldNNN_eq_fieldX_fieldNN, hNN, Nat.add_assoc]
  have hword : w.toNat =
      (fieldOp w).toNat * 4096 + (fieldX w).toNat * 256 + (fieldY w).toNat * 16 + (fieldN w).toNat := by
    rw [toNat_eq_fieldOp_fieldNNN, hNNN, ← Nat.add_assoc, ← Nat.add_assoc]
  exact ⟨hword, hNN, hNNN⟩

end Machine

end Sys2Proof
end

section
/-! Proofs about decoding the encoder's words (30_encoding.md R57, R63, R67). -/

namespace Sys2Proof

/-! ### The operand fields of a packed word -/

@[simp] theorem fieldNNN_packA (op : Nibble) (nnn : Addr12) : fieldNNN (packA op nnn) = nnn :=
  BitVec.eq_of_toNat_eq (by rw [fieldNNN_toNat, packA_toNat]; omega)

@[simp] theorem fieldX_packXNN (op x : Nibble) (nn : Byte) : fieldX (packXNN op x nn) = x :=
  BitVec.eq_of_toNat_eq (by rw [fieldX_toNat, packXNN_toNat]; omega)

@[simp] theorem fieldX_packXYN (op x y n : Nibble) : fieldX (packXYN op x y n) = x :=
  BitVec.eq_of_toNat_eq (by rw [fieldX_toNat, packXYN_toNat]; omega)

@[simp] theorem fieldY_packXYN (op x y n : Nibble) : fieldY (packXYN op x y n) = y :=
  BitVec.eq_of_toNat_eq (by rw [fieldY_toNat, packXYN_toNat]; omega)

@[simp] theorem regX_packXNN (op : Nibble) (r : Reg) (nn : Byte) : regX (packXNN op (regNibble r) nn) = r := by
  rw [regX, fieldX_packXNN]
  rfl

@[simp] theorem regX_packXYN (op y n : Nibble) (r : Reg) : regX (packXYN op (regNibble r) y n) = r := by
  rw [regX, fieldX_packXYN]
  rfl

@[simp] theorem regY_packXYN (op x n : Nibble) (r : Reg) : regY (packXYN op x (regNibble r) n) = r := by
  rw [regY, fieldY_packXYN]
  rfl

/-- The dispatch reads `op` first and then the discriminator of the family, and the encoder's word has
both at the values of its own row. -/
theorem decodeWord_encode (i : Instr) : decodeWord (encode i) = .ok i := by
  cases i
  case cls | ret => simp [encode, decodeWord, decodeFamily0]
  case ldReg | orReg | andReg | xorReg | addReg | subReg | shr | subnReg | shl =>
    simp [encode, decodeWord, decodeFamily8]
  case skp | sknp => simp [encode, decodeWord, decodeFamilyE]
  case ldRegDt | ldKey | ldDtReg | ldStReg | addI | ldFont | ldBcd | stRegs | ldRegs =>
    simp [encode, decodeWord, decodeFamilyF]
  all_goals simp [encode, decodeWord]

end Sys2Proof
end

section
/-! Proofs of the jumps and the skips (40_control.md R70, R72, R75 to R78; 44_timers_input.md R110, R111). -/

namespace Sys2Proof.Machine

/-! ### Frames of the updates of `pc` and of one byte -/

theorem sameBut_refl (s : State) : SameBut [] s s := fun p _ => by cases p <;> rfl

theorem sameBut_setPc (s : State) (v : Word) : SameBut [.pc] s (s.setPc v) := by
  intro p hp
  cases p <;> simp_all [SamePart]

theorem sameBut_skipIf (s : State) (b : Bool) : SameBut [.pc] s (s.skipIf b) := by
  cases b with
  | false => exact (sameBut_refl s).mono (by simp)
  | true => exact sameBut_setPc s _

theorem sameBut_endStep (s : State) : SameBut [.inputs] s s.endStep := by
  intro p hp
  cases p <;> simp_all [SamePart]

theorem sameBut_setByte (s : State) (a : Nat) (v : Byte) : SameBut [.byte a] s (s.setByte a v) := by
  intro p hp
  cases p <;> simp_all [SamePart, State.byte_setByte_of_ne]

/-! ### The jump -/

/-- Settles O26: `pc` is written once, and NNN fits into it. -/
theorem jumpSetsPc : Obligations.JumpSetsPc := by
  intro nnn s
  have hpc : (zext16 nnn).toNat = nnn.toNat := BitVec.toNat_setWidth_of_le (by decide)
  exact ⟨_, rfl, hpc, sameBut_setPc s _⟩

/-! ### Each skip instruction is `skipIf` on its condition -/

section
variable (x y : Reg) (nn : Byte) (ign : Nibble) (s : State)

theorem exec_seImm : exec (.seImm x nn) s = .next (s.skipIf (s.reg x == nn)) := rfl

theorem exec_sneImm : exec (.sneImm x nn) s = .next (s.skipIf (s.reg x != nn)) := rfl

theorem exec_seReg : exec (.seReg x y ign) s = .next (s.skipIf (s.reg x == s.reg y)) := rfl

theorem exec_sneReg : exec (.sneReg x y ign) s = .next (s.skipIf (s.reg x != s.reg y)) := rfl

variable {x s} {k : Fin 16}

theorem exec_skp_of_index (h : (s.reg x).toNat = k) : exec (.skp x) s = .next (s.skipIf (s.key k)) := by
  show execSkp x s = _
  rw [execSkp, keyIndex_of_eq h]

theorem exec_skp_above (h : 15 < (s.reg x).toNat) :
    exec (.skp x) s = .next (s.raise (.keyIndexOutOfRange (s.reg x)) (encode (.skp x))) := by
  show execSkp x s = _
  rw [execSkp, keyIndex_none h]

theorem exec_sknp_of_index (h : (s.reg x).toNat = k) : exec (.sknp x) s = .next (s.skipIf (!s.key k)) := by
  show execSknp x s = _
  rw [execSknp, keyIndex_of_eq h]

theorem exec_sknp_above (h : 15 < (s.reg x).toNat) :
    exec (.sknp x) s = .next (s.raise (.keyIndexOutOfRange (s.reg x)) (encode (.sknp x))) := by
  show execSknp x s = _
  rw [execSknp, keyIndex_none h]

end

theorem exists_key_or_above (v : Byte) : (∃ k : Fin 16, v.toNat = k) ∨ 15 < v.toNat := by
  by_cases h : v.toNat < 16
  · exact .inl ⟨⟨v.toNat, h⟩, rfl⟩
  · exact .inr (by omega)

/-- Settles O31: each of the four is `skipIf` on its comparison, which moves `pc` only. -/
theorem skipInstructionsCompare : Obligations.SkipInstructionsCompare := by
  intro s x y nn ign
  refine ⟨⟨_, exec_seImm x nn s, ?_, sameBut_skipIf s _⟩, ⟨_, exec_sneImm x nn s, ?_, sameBut_skipIf s _⟩,
    ⟨_, exec_seReg x y ign s, ?_, sameBut_skipIf s _⟩, ⟨_, exec_sneReg x y ign s, ?_, sameBut_skipIf s _⟩⟩
  all_goals simp [State.pc_skipIf]

/-! ### The two outcomes of a skip instruction (R70) -/

theorem State.skipIf_pos {s : State} {b : Bool} (h : b = true) : s.skipIf b = s.setPc (s.pc + 2) := if_pos h

theorem State.skipIf_neg {s : State} {b : Bool} (h : b = false) : s.skipIf b = s := if_neg (by simp [h])

theorem exec_of_skipHolds {i : Instr} {s : State} (h : SkipHolds i s) :
    exec i s = .next (s.setPc (s.pc + 2)) := by
  cases i
  case seImm x nn => rw [exec_seImm, State.skipIf_pos (beq_iff_eq.mpr h)]
  case sneImm x nn => rw [exec_sneImm, State.skipIf_pos (bne_iff_ne.mpr h)]
  case seReg x y ign => rw [exec_seReg, State.skipIf_pos (beq_iff_eq.mpr h)]
  case sneReg x y ign => rw [exec_sneReg, State.skipIf_pos (bne_iff_ne.mpr h)]
  case skp x =>
    obtain ⟨k, hk, hkey⟩ := h
    rw [exec_skp_of_index hk, State.skipIf_pos hkey]
  case sknp x =>
    obtain ⟨k, hk, hkey⟩ := h
    rw [exec_sknp_of_index hk, State.skipIf_pos (by rw [hkey]; rfl)]
  all_goals exact h.elim

/-- A key skip with a register above 15 is fatal instead of comparing, and leaves `pc` alone as well (R108). -/
theorem exec_pc_of_not_skipHolds {i : Instr} {s : State}
    (hi : i.mnemonic ∈ ([.seImm, .sneImm, .seReg, .sneReg, .skp, .sknp] : List Mnemonic))
    (h : ¬ SkipHolds i s) : ∃ t, exec i s = .next t ∧ t.pc = s.pc := by
  cases i
  case seImm x nn => exact ⟨_, exec_seImm x nn s, by rw [State.skipIf_neg (beq_eq_false_iff_ne.mpr h)]⟩
  case sneImm x nn =>
    exact ⟨_, exec_sneImm x nn s, by rw [State.skipIf_neg (bne_eq_false_iff_eq.mpr (not_not.mp h))]⟩
  case seReg x y ign => exact ⟨_, exec_seReg x y ign s, by rw [State.skipIf_neg (beq_eq_false_iff_ne.mpr h)]⟩
  case sneReg x y ign =>
    exact ⟨_, exec_sneReg x y ign s, by rw [State.skipIf_neg (bne_eq_false_iff_eq.mpr (not_not.mp h))]⟩
  case skp x =>
    obtain ⟨k, hk⟩ | habove := exists_key_or_above (s.reg x)
    · have hkey : s.key k = false := Bool.eq_false_iff.mpr fun hkey => h ⟨k, hk, hkey⟩
      exact ⟨_, exec_skp_of_index hk, by rw [State.skipIf_neg hkey]⟩
    · exact ⟨_, exec_skp_above habove, rfl⟩
  case sknp x =>
    obtain ⟨k, hk⟩ | habove := exists_key_or_above (s.reg x)
    · have hkey : s.key k = true := eq_true_of_ne_false fun hkey => h ⟨k, hk, hkey⟩
      exact ⟨_, exec_sknp_of_index hk, by rw [State.skipIf_neg (by rw [hkey]; rfl)]⟩
    · exact ⟨_, exec_sknp_above habove, rfl⟩
  all_goals exact absurd hi (by simp [Instr.mnemonic])

/-! ### What a skip depends on -/

/-- The condition of a skip is a function of the registers and the inputs alone. -/
theorem skipHolds_congr {s t : State} (i : Instr) (hx : t.x = s.x) (hinputs : t.inputs = s.inputs) :
    SkipHolds i t ↔ SkipHolds i s := by
  cases i <;> simp only [SkipHolds, State.reg, State.key, hx, hinputs]

/-- A fetch reads the two bytes at `pc` only. -/
theorem State.fetch_setByte_of_ne (s : State) {a : Nat} (v : Byte) (hfirst : a ≠ s.pc.toNat)
    (hsecond : a ≠ s.pc.toNat + 1) : (s.setByte a v).fetch = s.fetch := by
  simp only [State.fetch, State.memRead, State.pc_setByte, s.byte_setByte_of_ne hfirst.symm,
    s.byte_setByte_of_ne hsecond.symm]

/-- The two bytes after an instruction are not among those it is fetched from. -/
theorem State.fetch_setNextWord (s : State) (hi lo : Byte) :
    ((s.setByte (s.pc.toNat + 2) hi).setByte (s.pc.toNat + 3) lo).fetch = s.fetch := by
  rw [State.fetch_setByte_of_ne _ lo (by simp) (by simp), State.fetch_setByte_of_ne _ hi (by simp) (by simp)]

/-! ### A step that fetches a skip instruction -/

section
variable {s : State} {i : Instr} {key : KeySnapshot} {rand8 : Byte}
  (hrun : s.status = .running) (hfetch : s.fetch = .ok (encode i))
include hrun hfetch

theorem act_step_of_skipHolds (h : SkipHolds i (s.withInputs key rand8)) :
    act (.step key rand8) s = .next (s.setPc (s.pc + 4)).endStep := by
  have hadvanced : SkipHolds i (s.withInputs key rand8).advance := (skipHolds_congr i rfl rfl).mpr h
  rw [act_step_of_fetch hrun hfetch (decodeWord_encode i), exec_of_skipHolds hadvanced, onNext_next,
    State.pc_advance, State.pc_withInputs, BitVec.add_assoc]
  rfl

theorem act_step_pc_of_not_skipHolds
    (hi : i.mnemonic ∈ ([.seImm, .sneImm, .seReg, .sneReg, .skp, .sknp] : List Mnemonic))
    (h : ¬ SkipHolds i (s.withInputs key rand8)) :
    ∃ t, act (.step key rand8) s = .next t ∧ t.pc = s.pc + 2 := by
  have hadvanced : ¬ SkipHolds i (s.withInputs key rand8).advance := mt (skipHolds_congr i rfl rfl).mp h
  obtain ⟨t, hexec, hpc⟩ := exec_pc_of_not_skipHolds hi hadvanced
  refine ⟨t.endStep, ?_, hpc⟩
  rw [act_step_of_fetch hrun hfetch (decodeWord_encode i), hexec, onNext_next]

end

/-- Settles O32: the step reads the two bytes at `pc`, the registers and the inputs, so two writes behind the
instruction commute with it. -/
theorem skippedWordIsNotExamined : Obligations.SkippedWordIsNotExamined := by
  intro s i key rand8 hi lo hrun hfetch
  refine ⟨fun hskip => ?_, act_step_pc_of_not_skipHolds hrun hfetch⟩
  have hstep := act_step_of_skipHolds hrun hfetch hskip
  have hstepOther := act_step_of_skipHolds (s := (s.setByte (s.pc.toNat + 2) hi).setByte (s.pc.toNat + 3) lo)
    hrun ((s.fetch_setNextWord hi lo).trans hfetch) ((skipHolds_congr i rfl rfl).mpr hskip)
  exact ⟨_, _, hstep, rfl, (sameBut_setPc s _).trans (sameBut_endStep _), hstepOther,
    (sameBut_setByte (s.setPc (s.pc + 4)).endStep _ hi).trans (sameBut_setByte _ _ lo)⟩

end Sys2Proof.Machine
end

section
/-! Proofs of register arithmetic and logic (41_alu.md R81 to R92). -/

namespace Sys2Proof.Machine

/-! ### The flags and results of R88 to R92 as numbers -/

/-- R88. -/
theorem carryFlag_toNat (a b : Byte) : (carryFlag a b).toNat = if 255 < a.toNat + b.toNat then 1 else 0 :=
  flagByte_toNat _

/-- R89, and R91 with the operands exchanged. -/
theorem greaterFlag_toNat (a b : Byte) : (greaterFlag a b).toNat = if b.toNat < a.toNat then 1 else 0 :=
  flagByte_toNat _

/-- R90. -/
theorem lowBitFlag_toNat (a : Byte) : (lowBitFlag a).toNat = a.toNat % 2 :=
  (BitVec.toNat_and a 1).trans (Nat.and_one_is_mod _)

/-- R92. -/
theorem highBitFlag_toNat (a : Byte) : (highBitFlag a).toNat = a.toNat / 128 :=
  (BitVec.toNat_ushiftRight a 7).trans (Nat.shiftRight_eq_div_pow _ 7)

/-- The wrapped difference, written so that no subtraction of numbers is cut off at 0. -/
theorem byte_sub_toNat (a b : Byte) : (a - b).toNat = (a.toNat + 256 - b.toNat) % 256 := by
  rw [BitVec.toNat_sub, Nat.add_comm a.toNat, Nat.sub_add_comm b.isLt.le]

theorem byte_half_toNat (a : Byte) : (a >>> 1).toNat = a.toNat / 2 :=
  (BitVec.toNat_ushiftRight a 1).trans (Nat.shiftRight_eq_div_pow _ 1)

theorem byte_double_toNat (a : Byte) : (a <<< 1).toNat = a.toNat * 2 % 256 := by
  rw [BitVec.toNat_shiftLeft, Nat.shiftLeft_eq]

/-! ### The flag-writing operations -/

/-- Settles O38: the frame of R81 with the carry and the wrapped sum. -/
theorem addSetsCarry : Obligations.AddSetsCarry := fun x y s =>
  ⟨_, rfl, flagOp2_written x y s carryFlag (fun a b => a + b) (carryFlag_toNat _ _) BitVec.toNat_add⟩

/-- Settles O39: the frame of R81 with the strict comparison and the wrapped difference. -/
theorem subtractSetsStrictGreater : Obligations.SubtractSetsStrictGreater := fun x y s =>
  ⟨_, rfl, flagOp2_written x y s greaterFlag (fun a b => a - b) (greaterFlag_toNat _ _) byte_sub_toNat⟩

/-- Settles O40: as the subtraction, with the operands exchanged in the comparison and in the difference. -/
theorem reverseSubtractSetsStrictGreater : Obligations.ReverseSubtractSetsStrictGreater := fun x y s =>
  ⟨_, rfl, flagOp2_written x y s (fun a b => greaterFlag b a) (fun a b => b - a) (greaterFlag_toNat _ _)
    fun a b => byte_sub_toNat b a⟩

/-- Settles O41: the frame of R81 for one operand, with bit 0 and the half. -/
theorem shiftRightSetsLowBit : Obligations.ShiftRightSetsLowBit := fun x _ s =>
  ⟨_, rfl, flagOp1_written x s lowBitFlag (fun a => a >>> 1) (lowBitFlag_toNat _) fun a _ => byte_half_toNat a⟩

/-- Settles O42: the frame of R81 for one operand, with bit 7 and the wrapped double. -/
theorem shiftLeftSetsHighBit : Obligations.ShiftLeftSetsHighBit := fun x _ s =>
  ⟨_, rfl, flagOp1_written x s highBitFlag (fun a => a <<< 1) (highBitFlag_toNat _) fun a _ => byte_double_toNat a⟩

/-! ### The operations without a flag: one register write -/

theorem sameBut_setReg (s : State) (r : Reg) (v : Byte) : SameBut [.reg r] s (s.setReg r v) := by
  intro p hp
  cases p <;> simp_all [SamePart, State.reg_setReg_other]

/-- Settles O35: both loads write one register. -/
theorem loadsSetTheRegister : Obligations.LoadsSetTheRegister := fun x y nn s =>
  ⟨⟨_, rfl, s.reg_setReg_same x nn, sameBut_setReg s x nn⟩,
    ⟨_, rfl, s.reg_setReg_same x (s.reg y), sameBut_setReg s x (s.reg y)⟩⟩

/-- Settles O36: one register is written, with the sum of bytes. -/
theorem addImmediateWrapsWithoutFlag : Obligations.AddImmediateWrapsWithoutFlag := by
  intro x nn s
  refine ⟨s.setReg x (s.reg x + nn), rfl, ?_, sameBut_setReg s x _⟩
  rw [State.reg_setReg_same, BitVec.toNat_add]

/-- Settles O37: each writes one register, and an operation on bytes is one on each pair of bits. -/
theorem logicIsBitwise : Obligations.LogicIsBitwise := by
  intro x y s
  refine ⟨⟨_, rfl, sameBut_setReg s x _, fun k => ?or⟩, ⟨_, rfl, sameBut_setReg s x _, fun k => ?and⟩,
    ⟨_, rfl, sameBut_setReg s x _, fun k => ?xor⟩⟩
  case or => rw [State.reg_setReg_same]; exact BitVec.getElem_or k.isLt
  case and => rw [State.reg_setReg_same]; exact BitVec.getElem_and k.isLt
  case xor => rw [State.reg_setReg_same]; exact BitVec.getElem_xor k.isLt

end Sys2Proof.Machine
end

section
/-! Proofs of the instructions that set the index register (42_index_memory.md R95 to R97). -/

namespace Sys2Proof.Machine

/-! ### The three index values as numbers -/

/-- R95. -/
theorem zext16_addr12_toNat (nnn : Addr12) : (zext16 nnn).toNat = nnn.toNat :=
  BitVec.toNat_setWidth_of_le (by decide)

theorem zext16_byte_toNat (v : Byte) : (zext16 v).toNat = v.toNat :=
  BitVec.toNat_setWidth_of_le (by decide)

/-- R96. -/
theorem index_add_toNat (i : Word) (v : Byte) : (i + zext16 v).toNat = (i.toNat + v.toNat) % 65536 := by
  rw [BitVec.toNat_add, zext16_byte_toNat]

/-- R97: five times the largest byte is 1275, so the product does not wrap. -/
theorem glyphAddr_toNat (v : Byte) : (glyphAddr v).toNat = v.toNat * 5 := by
  have hfits : v.toNat * 5 < 65536 := by have := v.isLt; omega
  rw [glyphAddr, BitVec.toNat_mul, zext16_byte_toNat]
  exact Nat.mod_eq_of_lt hfits

/-! ### One write of the index register -/

theorem sameBut_setI (s : State) (v : Word) : SameBut [.i] s (s.setI v) := by
  intro p hp
  cases p <;> simp_all [SamePart]

/-- Settles O44: each writes the index register once, and the value written is the number of R95, R96 or R97. -/
theorem indexInstructionsSetI : Obligations.IndexInstructionsSetI := fun x nnn s =>
  ⟨⟨_, rfl, zext16_addr12_toNat nnn, sameBut_setI s _⟩,
    ⟨_, rfl, index_add_toNat s.i (s.reg x), sameBut_setI s _⟩,
    ⟨_, rfl, glyphAddr_toNat (s.reg x), sameBut_setI s _⟩⟩

end Sys2Proof.Machine
end

section
/-! Proof of clearing the display (43_display.md R101). -/

namespace Sys2Proof.Machine

/-- R101: only pixels change; every part but a pixel is read from a field that clearing keeps. -/
theorem sameExcept_clearDisp (s : State) : SameExcept (fun p => ∃ c r, p = .pixel c r) s s.clearDisp := by
  intro p hp
  cases p
  case pixel c r => exact absurd ⟨c, r, rfl⟩ hp
  all_goals rfl

/-- Settles O49: the instruction clears the display once, whatever its ignored nibble. -/
theorem clearTurnsEveryPixelOff : Obligations.ClearTurnsEveryPixelOff := fun _ s =>
  ⟨s.clearDisp, rfl, s.pixel_clearDisp, sameExcept_clearDisp s⟩

end Sys2Proof.Machine
end

section
/-! Proofs of the round trip between words and instructions (30_encoding.md R57, R63, R67). -/

namespace Sys2Proof

/-! ### A word is put together again from its fields -/

theorem packA_of_fields {w : Word} {op : Nibble} {nnn : Addr12} (hop : fieldOp w = op)
    (hnnn : fieldNNN w = nnn) : packA op nnn = w := by
  subst hop hnnn
  exact BitVec.eq_of_toNat_eq (by rw [packA_toNat, ← toNat_eq_fieldOp_fieldNNN])

theorem packXNN_of_fields {w : Word} {op x : Nibble} {nn : Byte} (hop : fieldOp w = op)
    (hx : fieldX w = x) (hnn : fieldNN w = nn) : packXNN op x nn = w := by
  subst hop hx hnn
  exact BitVec.eq_of_toNat_eq (by
    rw [packXNN_toNat, Nat.add_assoc, ← fieldNNN_eq_fieldX_fieldNN, ← toNat_eq_fieldOp_fieldNNN])

theorem packXYN_of_fields {w : Word} {op x y n : Nibble} (hop : fieldOp w = op) (hx : fieldX w = x)
    (hy : fieldY w = y) (hn : fieldN w = n) : packXYN op x y n = w := by
  subst hop hx hy hn
  obtain ⟨hword, _⟩ := Machine.fieldsAreViewsOfOneWord w
  exact BitVec.eq_of_toNat_eq (by rw [packXYN_toNat, ← hword])

theorem highByte_toNat (w : Word) : (highByte w).toNat = w.toNat / 256 := by
  rw [highByte, BitVec.extractLsb'_toNat, Nat.shiftRight_eq_div_pow]
  exact Nat.mod_eq_of_lt (Nat.div_lt_of_lt_mul w.isLt)

theorem lowByte_toNat (w : Word) : (lowByte w).toNat = w.toNat % 256 := fieldNN_toNat w

theorem wordOfBytes_toNat (high low : Byte) : (wordOfBytes high low).toNat = high.toNat * 256 + low.toNat :=
  Nat.mod_eq_of_lt (by omega)

/-- The two bytes of a word in address order make the word (R47). -/
theorem wordOfBytes_bytes (w : Word) : wordOfBytes (highByte w) (lowByte w) = w :=
  BitVec.eq_of_toNat_eq (by rw [wordOfBytes_toNat, highByte_toNat, lowByte_toNat, Nat.div_add_mod'])

/-! ### Operands fit by their type (R68) -/

@[simp] theorem reg_wellFormed (x : Reg) : (Operand.reg x).wellFormed = true := decide_eq_true x.isLt

@[simp] theorem byte_wellFormed (nn : Byte) : (Operand.byte nn.toNat).wellFormed = true :=
  decide_eq_true nn.isLt

@[simp] theorem addr_wellFormed (nnn : Addr12) : (Operand.addr nnn.toNat).wellFormed = true :=
  decide_eq_true nnn.isLt

@[simp] theorem nibble_wellFormed (n : Nibble) : (Operand.nibble n.toNat).wellFormed = true :=
  decide_eq_true n.isLt

theorem instr_wellFormed (i : Instr) : i.wellFormed = true := by
  cases i <;> simp [Instr.wellFormed, Instr.operands]

/-! ### Decoding what was encoded -/

theorem decode_bytes_of_decodeWord {w : Word} {i : Instr} (h : decodeWord w = .ok i) (rest : List Byte) :
    decode (highByte w :: lowByte w :: rest) = .ok (i, rest) := by
  rw [decode, wordOfBytes_bytes, h]

/-- Settles O2: the fields of a packed word are the ones packed, and the two bytes make the word. -/
theorem decodeOfEncodeIsTheInstruction : Obligations.DecodeOfEncodeIsTheInstruction := fun i rest =>
  ⟨instr_wellFormed i, decodeWord_encode i, decode_bytes_of_decodeWord (decodeWord_encode i) rest⟩

/-! ### Encoding what was decoded, family by family -/

section
variable {w : Word} {i : Instr}

theorem encode_of_decodeFamily0 (hop : fieldOp w = 0x0#4) (h : decodeFamily0 w = .ok i) : encode i = w := by
  unfold decodeFamily0 at h
  split at h <;> cases h
  all_goals exact packXNN_of_fields hop rfl ‹_›

theorem encode_of_decodeFamily8 (hop : fieldOp w = 0x8#4) (h : decodeFamily8 w = .ok i) : encode i = w := by
  unfold decodeFamily8 at h
  split at h <;> cases h
  all_goals exact packXYN_of_fields hop rfl rfl ‹_›

theorem encode_of_decodeFamilyE (hop : fieldOp w = 0xE#4) (h : decodeFamilyE w = .ok i) : encode i = w := by
  unfold decodeFamilyE at h
  split at h <;> cases h
  all_goals exact packXNN_of_fields hop rfl ‹_›

theorem encode_of_decodeFamilyF (hop : fieldOp w = 0xF#4) (h : decodeFamilyF w = .ok i) : encode i = w := by
  unfold decodeFamilyF at h
  split at h <;> cases h
  all_goals exact packXNN_of_fields hop rfl ‹_›

end

/-- The dispatch of R63: a family with a second discriminator leaves the word to it; in every other family each
word is an instruction. -/
theorem decodeWord_cases (w : Word) :
    (fieldOp w = 0x0 ∧ decodeWord w = decodeFamily0 w) ∨ (fieldOp w = 0x8 ∧ decodeWord w = decodeFamily8 w) ∨
    (fieldOp w = 0xE ∧ decodeWord w = decodeFamilyE w) ∨ (fieldOp w = 0xF ∧ decodeWord w = decodeFamilyF w) ∨
    (fieldOp w ∉ ([0x0, 0x8, 0xE, 0xF] : List Nibble) ∧ ∃ i, decodeWord w = .ok i ∧ encode i = w) := by
  unfold decodeWord
  split
  case h_1 hop => exact .inl ⟨hop, rfl⟩
  case h_9 hop => exact .inr (.inl ⟨hop, rfl⟩)
  case h_15 hop => exact .inr (.inr (.inl ⟨hop, rfl⟩))
  case h_16 =>
    have hop : fieldOp w = 0xF := by
      generalize fieldOp w = op at *
      revert op
      decide
    exact .inr (.inr (.inr (.inl ⟨hop, rfl⟩)))
  all_goals refine .inr (.inr (.inr (.inr ⟨by rw [‹fieldOp w = _›]; decide, _, rfl, ?_⟩)))
  case h_2 hop | h_3 hop | h_11 hop | h_12 hop => exact packA_of_fields hop rfl
  case h_4 hop | h_5 hop | h_7 hop | h_8 hop | h_13 hop => exact packXNN_of_fields hop rfl rfl
  case h_6 hop | h_10 hop | h_14 hop => exact packXYN_of_fields hop rfl rfl rfl

/-- Settles O3: the operands are fields of the word, and the discriminators of the arm taken are the ones the
encoder packs. -/
theorem encodeOfDecodeIsTheWord : Obligations.EncodeOfDecodeIsTheWord := by
  intro w i h
  obtain ⟨hop, hw⟩ | ⟨hop, hw⟩ | ⟨hop, hw⟩ | ⟨hop, hw⟩ | ⟨_, j, hw, hj⟩ := decodeWord_cases w
  · exact encode_of_decodeFamily0 hop (hw ▸ h)
  · exact encode_of_decodeFamily8 hop (hw ▸ h)
  · exact encode_of_decodeFamilyE hop (hw ▸ h)
  · exact encode_of_decodeFamilyF hop (hw ▸ h)
  · cases hw.symm.trans h
    exact hj

/-! ### The illegal words (R65) -/

section
variable (w : Word)

theorem decodeFamily0_error_iff :
    (∃ e, decodeFamily0 w = .error e) ↔ fieldNN w ∉ ([0xE0, 0xEE] : List Byte) := by
  unfold decodeFamily0
  split <;> simp_all

theorem decodeFamily8_error_iff : (∃ e, decodeFamily8 w = .error e) ↔
    fieldN w ∈ ([0x8, 0x9, 0xA, 0xB, 0xC, 0xD, 0xF] : List Nibble) := by
  unfold decodeFamily8
  split
  case h_10 =>
    refine iff_of_true ⟨_, rfl⟩ ?_
    generalize fieldN w = n at *
    revert n
    decide
  all_goals simp_all

theorem decodeFamilyE_error_iff :
    (∃ e, decodeFamilyE w = .error e) ↔ fieldNN w ∉ ([0x9E, 0xA1] : List Byte) := by
  unfold decodeFamilyE
  split <;> simp_all

theorem decodeFamilyF_error_iff : (∃ e, decodeFamilyF w = .error e) ↔
    fieldNN w ∉ ([0x07, 0x0A, 0x15, 0x18, 0x1E, 0x29, 0x33, 0x55, 0x65] : List Byte) := by
  unfold decodeFamilyF
  split <;> simp_all

end

/-- Settles O5: only a second discriminator outside its family's list is refused. -/
theorem illegalWordsAreTheListedOnes : Obligations.IllegalWordsAreTheListedOnes := by
  intro w
  obtain ⟨hop, hw⟩ | ⟨hop, hw⟩ | ⟨hop, hw⟩ | ⟨hop, hw⟩ | ⟨hop, i, hw, _⟩ := decodeWord_cases w
  · simp [hw, hop, decodeFamily0_error_iff]
  · simp [hw, hop, decodeFamily8_error_iff]
  · simp [hw, hop, decodeFamilyE_error_iff]
  · simp [hw, hop, decodeFamilyF_error_iff]
  · simp_all

/-! ### Masks and patterns (R67) -/

/-- A word that has the pattern of two rows would make the two patterns agree where both masks look. -/
theorem opcodeRows_exclusive : ∀ row ∈ opcodeRows, ∀ row' ∈ opcodeRows,
    row.pattern &&& row'.mask = row'.pattern &&& row.mask → row = row' := by
  decide

theorem opcodeRows_mnemonic_injective : ∀ row ∈ opcodeRows, ∀ row' ∈ opcodeRows,
    row.mnemonic = row'.mnemonic → row = row' := by
  decide

/-- Each row's mask keeps what the dispatch of R63 reads in the row's family, and its pattern is on the list there. -/
theorem opcodeRows_legal : ∀ row ∈ opcodeRows,
    (row.mask = 0xF000 ∧ fieldOp row.pattern ∉ ([0x0, 0x8, 0xE, 0xF] : List Nibble)) ∨
    (row.mask = 0xF00F ∧ fieldOp row.pattern = 0x8 ∧
      fieldN row.pattern ∉ ([0x8, 0x9, 0xA, 0xB, 0xC, 0xD, 0xF] : List Nibble)) ∨
    (row.mask = 0xF0FF ∧ (fieldOp row.pattern = 0x0 ∧ fieldNN row.pattern ∈ ([0xE0, 0xEE] : List Byte) ∨
      fieldOp row.pattern = 0xE ∧ fieldNN row.pattern ∈ ([0x9E, 0xA1] : List Byte) ∨
      fieldOp row.pattern = 0xF ∧
        fieldNN row.pattern ∈ ([0x07, 0x0A, 0x15, 0x18, 0x1E, 0x29, 0x33, 0x55, 0x65] : List Byte))) := by
  decide

/-- The word of every instruction is of its own row. -/
theorem encode_matchesRow (i : Instr) : Laws.MatchesRow.Statement i :=
  match i with
  | .cls ign => Laws.MatchesRow.cls ign
  | .ret ign => Laws.MatchesRow.ret ign
  | .jp nnn => Laws.MatchesRow.jp nnn
  | .call nnn => Laws.MatchesRow.call nnn
  | .seImm x nn => Laws.MatchesRow.seImm x nn
  | .sneImm x nn => Laws.MatchesRow.sneImm x nn
  | .seReg x y ign => Laws.MatchesRow.seReg x y ign
  | .ldImm x nn => Laws.MatchesRow.ldImm x nn
  | .addImm x nn => Laws.MatchesRow.addImm x nn
  | .ldReg x y => Laws.MatchesRow.ldReg x y
  | .orReg x y => Laws.MatchesRow.orReg x y
  | .andReg x y => Laws.MatchesRow.andReg x y
  | .xorReg x y => Laws.MatchesRow.xorReg x y
  | .addReg x y => Laws.MatchesRow.addReg x y
  | .subReg x y => Laws.MatchesRow.subReg x y
  | .shr x ign => Laws.MatchesRow.shr x ign
  | .subnReg x y => Laws.MatchesRow.subnReg x y
  | .shl x ign => Laws.MatchesRow.shl x ign
  | .sneReg x y ign => Laws.MatchesRow.sneReg x y ign
  | .ldI nnn => Laws.MatchesRow.ldI nnn
  | .jpV0 nnn => Laws.MatchesRow.jpV0 nnn
  | .rnd x nn => Laws.MatchesRow.rnd x nn
  | .drw x y n => Laws.MatchesRow.drw x y n
  | .skp x => Laws.MatchesRow.skp x
  | .sknp x => Laws.MatchesRow.sknp x
  | .ldRegDt x => Laws.MatchesRow.ldRegDt x
  | .ldKey x => Laws.MatchesRow.ldKey x
  | .ldDtReg x => Laws.MatchesRow.ldDtReg x
  | .ldStReg x => Laws.MatchesRow.ldStReg x
  | .addI x => Laws.MatchesRow.addI x
  | .ldFont x => Laws.MatchesRow.ldFont x
  | .ldBcd x => Laws.MatchesRow.ldBcd x
  | .stRegs x => Laws.MatchesRow.stRegs x
  | .ldRegs x => Laws.MatchesRow.ldRegs x

theorem decodeWord_ok_of_not_error {w : Word} (h : ¬ ∃ e, decodeWord w = .error e) : ∃ i, decodeWord w = .ok i := by
  cases hw : decodeWord w with
  | ok i => exact ⟨i, rfl⟩
  | error e => exact absurd ⟨e, hw⟩ h

section
variable {w : Word} {row row' : OpcodeRow} (hrow : row ∈ opcodeRows) (h : w &&& row.mask = row.pattern)
include hrow h

theorem decodeWord_ok_of_row : ∃ i, decodeWord w = .ok i := by
  refine decodeWord_ok_of_not_error fun herr => ?_
  rw [illegalWordsAreTheListedOnes w] at herr
  obtain ⟨hmask, hlist⟩ | ⟨hmask, hlist⟩ | ⟨hmask, hlist⟩ := opcodeRows_legal row hrow
  · rw [← h, hmask, and_mask_family, fieldOp_packA] at hlist
    simp_all
  · rw [← h, hmask, and_mask_nibble, fieldOp_packXYN, fieldN_packXYN] at hlist
    simp_all
  · rw [← h, hmask, and_mask_byte, fieldOp_packXNN, fieldNN_packXNN] at hlist
    obtain ⟨hop, hnn⟩ | ⟨hop, hnn⟩ | ⟨hop, hnn⟩ := hlist <;> simp_all

theorem row_unique (hrow' : row' ∈ opcodeRows) (h' : w &&& row'.mask = row'.pattern) : row = row' := by
  refine opcodeRows_exclusive row hrow row' hrow' ?_
  rw [← h, ← h', BitVec.and_assoc, BitVec.and_assoc, BitVec.and_comm row.mask]

end

theorem word_matches_row_iff {w : Word} {row : OpcodeRow} (hrow : row ∈ opcodeRows) :
    w &&& row.mask = row.pattern ↔ ∃ i, decodeWord w = .ok i ∧ i.mnemonic = row.mnemonic := by
  constructor
  · intro h
    obtain ⟨i, hi⟩ := decodeWord_ok_of_row hrow h
    obtain ⟨row', hrow', hm, h'⟩ := encode_matchesRow i
    rw [encodeOfDecodeIsTheWord w i hi] at h'
    rw [row_unique hrow h hrow' h']
    exact ⟨i, hi, hm.symm⟩
  · rintro ⟨i, hi, hm⟩
    obtain ⟨row', hrow', hm', h'⟩ := encode_matchesRow i
    rw [encodeOfDecodeIsTheWord w i hi] at h'
    rwa [opcodeRows_mnemonic_injective row hrow row' hrow' (hm.symm.trans hm'.symm)]

theorem mem_mnemonics (m : Mnemonic) : m ∈ opcodeRows.map OpcodeRow.mnemonic := by
  cases m <;> decide

/-- Settles O4: a word of a row is legal, so it is the encoding of what it decodes to, and that has one row only. -/
theorem decoderAgreesWithOpcodeMap : Obligations.DecoderAgreesWithOpcodeMap :=
  ⟨fun _ _ hrow => word_matches_row_iff hrow, fun m => List.mem_map.mp (mem_mnemonics m),
    fun _ _ _ hrow hrow' h h' => row_unique hrow h hrow' h', rfl⟩

end Sys2Proof
end

section
/-! Proofs of the ignored nibbles and of words written out (30_encoding.md R64, R65, R67). -/

namespace Sys2Proof.Machine

/-- RET reads nothing but the stack and `pc` unless it is fatal (R71). -/
theorem exec_ret_of_top {s : State} {a : Word} (h : s.stack.getLast? = some a) (ign : Nibble) :
    exec (.ret ign) s = .next ({ s with stack := s.stack.dropLast }.setPc a) := by
  show execRet ign s = _
  rw [execRet, State.pop, h]

theorem exec_ret_of_nil {s : State} (h : s.stack = []) (ign : Nibble) :
    exec (.ret ign) s = .next (s.raise .stackUnderflow (encode (.ret ign))) := by
  show execRet ign s = _
  rw [execRet, State.pop, h]
  rfl

/-- Settles O6: the dispatch does not look at the nibble, and no meaning but the record of RET takes it up. -/
theorem ignoredNibblesHaveNoEffect : Obligations.IgnoredNibblesHaveNoEffect := by
  refine ⟨fun w hop hnn => ?cls, fun w hop hnn => ?ret, fun w hop => ?seReg, fun w hop => ?sneReg,
    fun w hop hn => ?shr, fun w hop hn => ?shl, fun s a b x y => ⟨rfl, fun hstack => ?effect, rfl, rfl, rfl, rfl⟩⟩
  case cls | ret => simp [decodeWord, decodeFamily0, hop, hnn]
  case seReg | sneReg => simp [decodeWord, hop]
  case shr | shl => simp [decodeWord, decodeFamily8, hop, hn]
  case effect =>
    have htop := List.getLast?_eq_some_getLast hstack
    rw [exec_ret_of_top htop, exec_ret_of_top htop]

/-- Settles O7: ten words, each through the dispatch. -/
theorem someWordsDecodeAsTheMapSays : Obligations.SomeWordsDecodeAsTheMapSays :=
  ⟨rfl, rfl, rfl, rfl, rfl, rfl, rfl, rfl, rfl, rfl⟩

end Sys2Proof.Machine
end

section
/-! Proofs of the assembler on operands (30_encoding.md R68). -/

namespace Sys2Proof

/-! ### An operand that fits its field is unchanged by it -/

theorem regOperand_of_fits {n : Nat} (h : (Operand.reg n).wellFormed = true) :
    Operand.reg (Fin.ofNat 16 n : Reg) = .reg n :=
  congrArg Operand.reg (Nat.mod_eq_of_lt (of_decide_eq_true h))

theorem byteOperand_of_fits {n : Nat} (h : (Operand.byte n).wellFormed = true) :
    Operand.byte (BitVec.ofNat 8 n).toNat = .byte n :=
  congrArg Operand.byte (Nat.mod_eq_of_lt (of_decide_eq_true h))

theorem addrOperand_of_fits {n : Nat} (h : (Operand.addr n).wellFormed = true) :
    Operand.addr (BitVec.ofNat 12 n).toNat = .addr n :=
  congrArg Operand.addr (Nat.mod_eq_of_lt (of_decide_eq_true h))

theorem nibbleOperand_of_fits {n : Nat} (h : (Operand.nibble n).wellFormed = true) :
    Operand.nibble (BitVec.ofNat 4 n).toNat = .nibble n :=
  congrArg Operand.nibble (Nat.mod_eq_of_lt (of_decide_eq_true h))

/-! ### Each operand form takes its operands and no others -/

section
variable {ops : List Operand} {i : Instr}

theorem asmNone_ok {j : Instr} (h : asmNone j ops = .ok i) : i = j ∧ [] = ops := by
  unfold asmNone at h
  split at h <;> cases h
  exact ⟨rfl, rfl⟩

variable (hfit : ∀ o ∈ ops, o.wellFormed = true)
include hfit

theorem asmAddr_ok {f : Addr12 → Instr} (h : asmAddr f ops = .ok i) :
    ∃ nnn, i = f nnn ∧ [.addr nnn.toNat] = ops := by
  unfold asmAddr at h
  split at h <;> cases h
  exact ⟨_, rfl, by rw [addrOperand_of_fits (hfit _ (by simp))]⟩

theorem asmReg_ok {f : Reg → Instr} (h : asmReg f ops = .ok i) : ∃ x : Reg, i = f x ∧ [.reg x] = ops := by
  unfold asmReg at h
  split at h <;> cases h
  exact ⟨_, rfl, by rw [regOperand_of_fits (hfit _ (by simp))]⟩

theorem asmRegByte_ok {f : Reg → Byte → Instr} (h : asmRegByte f ops = .ok i) :
    ∃ (x : Reg) (nn : Byte), i = f x nn ∧ [.reg x, .byte nn.toNat] = ops := by
  unfold asmRegByte at h
  split at h <;> cases h
  exact ⟨_, _, rfl, by rw [regOperand_of_fits (hfit _ (by simp)), byteOperand_of_fits (hfit _ (by simp))]⟩

theorem asmRegReg_ok {f : Reg → Reg → Instr} (h : asmRegReg f ops = .ok i) :
    ∃ x y : Reg, i = f x y ∧ [.reg x, .reg y] = ops := by
  unfold asmRegReg at h
  split at h <;> cases h
  exact ⟨_, _, rfl, by rw [regOperand_of_fits (hfit _ (by simp)), regOperand_of_fits (hfit _ (by simp))]⟩

theorem asmRegRegNibble_ok {f : Reg → Reg → Nibble → Instr} (h : asmRegRegNibble f ops = .ok i) :
    ∃ (x y : Reg) (n : Nibble), i = f x y n ∧ [.reg x, .reg y, .nibble n.toNat] = ops := by
  unfold asmRegRegNibble at h
  split at h <;> cases h
  exact ⟨_, _, _, rfl, by rw [regOperand_of_fits (hfit _ (by simp)), regOperand_of_fits (hfit _ (by simp)),
    nibbleOperand_of_fits (hfit _ (by simp))]⟩

theorem asmFitting_ok {m : Mnemonic} (h : asmFitting m ops = .ok i) : i.mnemonic = m ∧ i.operands = ops := by
  cases m
  all_goals dsimp only [asmFitting] at h
  case cls | ret =>
    obtain ⟨rfl, hops⟩ := asmNone_ok h
    exact ⟨rfl, hops⟩
  case jp | call | ldI | jpV0 =>
    obtain ⟨nnn, rfl, hops⟩ := asmAddr_ok hfit h
    exact ⟨rfl, hops⟩
  case seImm | sneImm | ldImm | addImm | rnd =>
    obtain ⟨x, nn, rfl, hops⟩ := asmRegByte_ok hfit h
    exact ⟨rfl, hops⟩
  case drw =>
    obtain ⟨x, y, n, rfl, hops⟩ := asmRegRegNibble_ok hfit h
    exact ⟨rfl, hops⟩
  case seReg | sneReg | ldReg | orReg | andReg | xorReg | addReg | subReg | subnReg =>
    obtain ⟨x, y, rfl, hops⟩ := asmRegReg_ok hfit h
    exact ⟨rfl, hops⟩
  all_goals
    obtain ⟨x, rfl, hops⟩ := asmReg_ok hfit h
    exact ⟨rfl, hops⟩

end

theorem assemble_ok {m : Mnemonic} {ops : List Operand} {i : Instr} (h : assemble m ops = .ok i) :
    i.mnemonic = m ∧ i.operands = ops ∧ ops.all Operand.wellFormed = true := by
  unfold assemble at h
  split at h
  next hfit =>
    obtain ⟨hm, hops⟩ := asmFitting_ok (List.all_eq_true.mp hfit) h
    exact ⟨hm, hops, hfit⟩
  · cases h

theorem assemble_not_fitting {ops : List Operand} (h : ops.all Operand.wellFormed = false) (m : Mnemonic) :
    assemble m ops = .error .operandDoesNotFit := by
  rw [assemble, h]
  rfl

/-! ### What an instruction's own mnemonic and operands assemble to -/

/-- The instruction with its ignored nibble 0 (R64, R68). -/
def Instr.withIgnoredZero : Instr → Instr
  | .cls _ => .cls 0
  | .ret _ => .ret 0
  | .seReg x y _ => .seReg x y 0
  | .shr x _ => .shr x 0
  | .shl x _ => .shl x 0
  | .sneReg x y _ => .sneReg x y 0
  | i => i

theorem asmFitting_operands (i : Instr) : asmFitting i.mnemonic i.operands = .ok i.withIgnoredZero := by
  cases i <;> simp [Instr.mnemonic, Instr.operands, asmFitting, asmNone, asmAddr, asmReg, asmRegByte, asmRegReg,
    asmRegRegNibble, Instr.withIgnoredZero]

theorem assemble_operands (i : Instr) : assemble i.mnemonic i.operands = .ok i.withIgnoredZero := by
  rw [assemble, if_pos (show i.operands.all _ = true from instr_wellFormed i), asmFitting_operands]

theorem withIgnoredZero_ignored (i : Instr) :
    (∀ ign, i.withIgnoredZero = .cls ign ∨ i.withIgnoredZero = .ret ign → ign = 0) ∧
    (∀ x ign, i.withIgnoredZero = .shr x ign ∨ i.withIgnoredZero = .shl x ign → ign = 0) ∧
    (∀ x y ign, i.withIgnoredZero = .seReg x y ign ∨ i.withIgnoredZero = .sneReg x y ign → ign = 0) := by
  cases i <;> simp [Instr.withIgnoredZero]

/-- Settles O8: a mnemonic fixes one operand form, and a form takes its operands at the values given. -/
theorem assemblerTakesFittingOperands : Obligations.AssemblerTakesFittingOperands := by
  refine ⟨fun m ops h => assemble_not_fitting h m, fun m ops i => assemble_ok, fun i => ?_⟩
  obtain ⟨hm, hops, _⟩ := assemble_ok (assemble_operands i)
  exact ⟨_, assemble_operands i, hm, hops, withIgnoredZero_ignored i⟩

end Sys2Proof
end

section
/-! Frames: how they compose, and what the updates of one part leave unchanged (10_state.md, 60_exceptions.md R118). -/

namespace Sys2Proof.Machine

/-! ### Composing frames -/

theorem SameExcept.trans {P Q : Part → Prop} {s t u : State} (h : SameExcept P s t) (k : SameExcept Q t u) :
    SameExcept (fun p => P p ∨ Q p) s u :=
  fun p hp => (h p fun q => hp (.inl q)).trans (k p fun q => hp (.inr q))

theorem SameExcept.mono {P Q : Part → Prop} {s t : State} (h : SameExcept P s t) (k : ∀ p, P p → Q p) :
    SameExcept Q s t :=
  fun p hp => h p fun q => hp (k p q)

theorem SameBut.toExcept {s t : State} {l : List Part} {P : Part → Prop} (h : SameBut l s t) (k : ∀ p ∈ l, P p) :
    SameExcept P s t :=
  SameExcept.mono h k

/-! ### The updates of one part, and the ones made of them -/

section
variable (s : State)

theorem sameBut_setDt (v : Byte) : SameBut [.dt] s (s.setDt v) := by
  intro p hp
  cases p <;> simp_all [SamePart]

theorem sameBut_setSt (v : Byte) : SameBut [.st] s (s.setSt v) := by
  intro p hp
  cases p <;> simp_all [SamePart]

theorem sameBut_enterWait (r : Reg) : SameBut [.latch] s (s.enterWait r) := by
  intro p hp
  cases p <;> simp_all [SamePart]

theorem sameBut_push (a : Word) : SameBut [.stack] s (s.push a) := by
  intro p hp
  cases p <;> simp_all [SamePart]

theorem sameBut_setStack (l : List Word) : SameBut [.stack] s { s with stack := l } := by
  intro p hp
  cases p
  case stack => exact absurd (by simp) hp
  all_goals rfl

/-- A call writes the stack and `pc`. -/
theorem sameBut_call (a v : Word) : SameBut [.pc, .stack] s ((s.push a).setPc v) :=
  ((sameBut_push s a).trans (sameBut_setPc _ v)).mono (by simp)

/-- A return writes the stack and `pc`. -/
theorem sameBut_return (l : List Word) (v : Word) : SameBut [.pc, .stack] s ({ s with stack := l }.setPc v) :=
  ((sameBut_setStack s l).trans (sameBut_setPc _ v)).mono (by simp)

theorem sameBut_digits (a : Nat) (u v w : Byte) : SameBut [.byte a, .byte (a + 1), .byte (a + 2)] s
    (((s.setByte a u).setByte (a + 1) v).setByte (a + 2) w) :=
  ((sameBut_setByte s a u).trans (sameBut_setByte _ (a + 1) v)).trans (sameBut_setByte _ (a + 2) w)

theorem sameBut_raise (c : FatalCondition) (w : Word) : SameBut [.fault] s (s.raise c w) := by
  intro p hp
  cases p <;> simp_all [SamePart]

/-- A condition raised when nothing has been written is the whole effect (R118). -/
theorem raised_raise (c : FatalCondition) (w : Word) : Raised c w s (s.raise c w) :=
  ⟨s.fault_raise c w, sameBut_raise s c w⟩

end

end Sys2Proof.Machine
end

section
/-! Proofs of the sprite (43_display.md R102 to R107). -/

namespace Sys2Proof.Machine

/-! ### The whole instruction, from the rows of `drawRows_spec` -/

theorem spriteOn_iff (s : State) (x y : Reg) (n : Nibble) (c : Fin 64) (r : Fin 32) :
    SpriteOn s x y n c r ↔ ∃ row col, 0 ≤ row ∧ row < 0 + n.toNat ∧ col < 8 ∧ s.base + row < Config.memSize ∧
      originCol (s.reg x) + col = c ∧ originRow (s.reg y) + row = r ∧
      spriteBit (s.byte (s.base + row)) col = true := by
  simp [SpriteOn, originCol_eq, originRow_eq, spriteBit_eq, State.base]

theorem spriteReadFaults_iff (s : State) (y : Reg) (n : Nibble) :
    SpriteReadFaults s y n ↔ ∃ row, 0 ≤ row ∧ row < 0 + n.toNat ∧ originRow (s.reg y) + row ≤ 32 ∧
      Config.memSize ≤ s.base + row := by
  simp [SpriteReadFaults, originRow_eq, State.base]

theorem exec_drw (x y : Reg) (n : Nibble) (s : State) :
    ∃ u, Drawn (SpriteOn s x y n) (s.setReg VF 0) u ∧
      (SpriteReadFaults s y n →
        exec (.drw x y n) s = .next (u.raise (.memOutOfRange (max s.i.toNat 4096)) (encode (.drw x y n)))) ∧
      (¬ SpriteReadFaults s y n → exec (.drw x y n) s = .next u) := by
  obtain ⟨u, hdrawn, hfault, hdone⟩ := drawRows_spec (s.setReg VF 0) (encode (.drw x y n)) s.base
    (originCol (s.reg x)) (originRow (s.reg y)) (start := 0) (len := n.toNat)
  have hrow : originRow (s.reg y) + 0 ≤ 32 := by rw [originRow_eq]; omega
  have hexec : exec (.drw x y n) s = .next ((s.setReg VF 0).drawRows (encode (.drw x y n)) s.base
      (originCol (s.reg x)) (originRow (s.reg y)) (List.range' 0 n.toNat)) := by
    rw [← List.range_eq_range']
    rfl
  rw [spriteReadFaults_iff, hexec]
  refine ⟨u, ?_, fun h => congrArg _ (hfault h hrow), fun h => congrArg _ (hdone h hrow)⟩
  convert hdrawn using 3
  exact spriteOn_iff s x y n _ _

/-! ### What a drawing leaves unchanged -/

theorem Drawn.sameExcept {on : Fin 64 → Fin 32 → Prop} {s u : State} {v : Byte} (h : Drawn on (s.setReg VF v) u) :
    SameExcept (fun p => p = .reg VF ∨ ∃ c r, p = .pixel c r) s u := by
  obtain ⟨mem, i, pc, dt, st, stack, latch, inputs, host, draws, regs⟩ := h.frame
  intro p hp
  cases p
  case reg r =>
    have hr : r ≠ VF := fun e => hp (.inl (congrArg _ e))
    exact (regs r hr).trans (s.reg_setReg_other hr v)
  case pixel c r => exact absurd (.inr ⟨c, r, rfl⟩) hp
  case fault => exact h.fault
  case byte a => exact congrArg (readCell · a) mem
  all_goals assumption

/-- Settles O50: the drawing gives pixels and VF, and only the fault record of a faulting draw comes on top. -/
theorem drawInvertsTheSpritePixels : Obligations.DrawInvertsTheSpritePixels := by
  intro x y n s
  obtain ⟨u, hdrawn, hfault, hdone⟩ := exec_drw x y n s
  have hframe := hdrawn.sameExcept
  obtain ⟨hpixels, hhit, hmiss, hrecord, hparts⟩ := hdrawn
  have hmiss : (¬ ∃ c r, SpriteOn s x y n c r ∧ s.pixel c r = true) → u.reg VF = 0 := fun h =>
    (hmiss h).trans (s.reg_setReg_same VF 0)
  by_cases hf : SpriteReadFaults s y n
  · refine ⟨_, hfault hf, hpixels, hhit, hmiss, fun _ => ?_, fun h => absurd hf h, ?_⟩
    · rw [State.fault_raise, hparts.pc, State.pc_setReg]
    · exact (hframe.trans (sameBut_raise u _ _)).mono fun p hp => by simp at hp; tauto
  · exact ⟨_, hdone hf, hpixels, hhit, hmiss, fun h => absurd h hf, fun _ => hrecord,
      hframe.mono fun p hp => by tauto⟩

/-! ### Drawing twice, and the box -/

section
variable {x y : Reg} {n : Nibble} {s t : State} (h : exec (.drw x y n) s = .next t)
include h

theorem pixel_drw (c : Fin 64) (r : Fin 32) :
    t.pixel c r = true ↔ (s.pixel c r = true ↔ ¬ SpriteOn s x y n c r) := by
  obtain ⟨t', ht', hpixels, _⟩ := drawInvertsTheSpritePixels x y n s
  cases h.symm.trans ht'
  exact hpixels c r

theorem sameExcept_drw : SameExcept (fun p => p = .reg VF ∨ p = .fault ∨ ∃ c r, p = .pixel c r) s t := by
  obtain ⟨t', ht', _, _, _, _, _, hframe⟩ := drawInvertsTheSpritePixels x y n s
  cases h.symm.trans ht'
  exact hframe

theorem vf_drw : ((∃ c r, SpriteOn s x y n c r ∧ s.pixel c r = true) → t.reg VF = 1) ∧
    ((¬ ∃ c r, SpriteOn s x y n c r ∧ s.pixel c r = true) → t.reg VF = 0) := by
  obtain ⟨t', ht', _, hhit, hmiss, _⟩ := drawInvertsTheSpritePixels x y n s
  cases h.symm.trans ht'
  exact ⟨hhit, hmiss⟩

/-- A draw does not move its own sprite unless a coordinate stands in VF. -/
theorem spriteOn_after_drw (hx : x ≠ VF) (hy : y ≠ VF) (c : Fin 64) (r : Fin 32) :
    SpriteOn t x y n c r ↔ SpriteOn s x y n c r := by
  have hframe := sameExcept_drw h
  have hregX : t.reg x = s.reg x := hframe (.reg x) (by simp [hx])
  have hregY : t.reg y = s.reg y := hframe (.reg y) (by simp [hy])
  have hi : t.i = s.i := hframe .i (by simp)
  have hbyte : ∀ a, t.byte a = s.byte a := fun a => hframe (.byte a) (by simp)
  simp only [SpriteOn, hregX, hregY, hi, hbyte]

end

/-- Settles O51: the second draw inverts the same pixels again, and meets an on pixel where the first met an off
one. -/
theorem drawingTwiceRestoresTheDisplay : Obligations.DrawingTwiceRestoresTheDisplay := by
  intro x y n s t u hx hy ht hu
  have hsame := spriteOn_after_drw ht hx hy
  have hcollision : (∃ c r, SpriteOn t x y n c r ∧ t.pixel c r = true) ↔
      ∃ c r, SpriteOn s x y n c r ∧ s.pixel c r = false := by
    refine exists₂_congr fun c r => ?_
    rw [hsame, pixel_drw ht, ← Bool.not_eq_true]
    tauto
  refine ⟨fun c r => ?_, ?_⟩
  · rw [Bool.eq_iff_iff, pixel_drw hu, pixel_drw ht, hsame]
    tauto
  · rw [← hcollision]
    exact vf_drw hu

/-- Settles O52: only a pixel that an on bit lands on changes, and that is one of 8 columns and N rows. -/
theorem drawStaysInsideItsBox : Obligations.DrawStaysInsideItsBox := by
  intro x y n s t c r h hne
  have hon : SpriteOn s x y n c r := by
    by_contra hoff
    refine hne (Bool.eq_iff_iff.mpr ?_)
    rw [pixel_drw h]
    tauto
  obtain ⟨row, col, hrow, hcol, _, hc, hr, _⟩ := hon
  omega

end Sys2Proof.Machine
end

section
/-! Proofs of the transfers between registers and memory (42_index_memory.md R98 to R100). -/

namespace Sys2Proof.Machine

/-! ### The range check decides between the transfer and its fault (R50) -/

section
variable {x : Reg} {s : State}

theorem exec_ldBcd_inside (h : s.i.toNat + 2 < 4096) :
    exec (.ldBcd x) s = .next (((s.setByte s.i.toNat (hundreds (s.reg x))).setByte (s.i.toNat + 1)
      (tens (s.reg x))).setByte (s.i.toNat + 2) (units (s.reg x))) := by
  show execLdBcd x s = _
  rw [execLdBcd, State.base, rangeFault, if_neg (Nat.not_le.mpr h)]

theorem exec_ldBcd_outside (h : 4096 ≤ s.i.toNat + 2) :
    exec (.ldBcd x) s = .next (s.raise (.memOutOfRange (max s.i.toNat 4096)) (encode (.ldBcd x))) := by
  show execLdBcd x s = _
  rw [execLdBcd, State.base, rangeFault, if_pos h]

theorem exec_stRegs_inside (h : s.i.toNat + x < 4096) :
    exec (.stRegs x) s = .next (s.storeRegs s.i.toNat (x + 1)) := by
  show execStRegs x s = _
  rw [execStRegs, State.base, rangeFault, if_neg (Nat.not_le.mpr h)]

theorem exec_stRegs_outside (h : 4096 ≤ s.i.toNat + x) :
    exec (.stRegs x) s = .next (s.raise (.memOutOfRange (max s.i.toNat 4096)) (encode (.stRegs x))) := by
  show execStRegs x s = _
  rw [execStRegs, State.base, rangeFault, if_pos h]

theorem exec_ldRegs_inside (h : s.i.toNat + x < 4096) :
    exec (.ldRegs x) s = .next (s.loadRegs s.i.toNat (x + 1)) := by
  show execLdRegs x s = _
  rw [execLdRegs, State.base, rangeFault, if_neg (Nat.not_le.mpr h)]

theorem exec_ldRegs_outside (h : 4096 ≤ s.i.toNat + x) :
    exec (.ldRegs x) s = .next (s.raise (.memOutOfRange (max s.i.toNat 4096)) (encode (.ldRegs x))) := by
  show execLdRegs x s = _
  rw [execLdRegs, State.base, rangeFault, if_pos h]

end

/-! ### Decimal digits (R98) -/

theorem hundreds_toNat (v : Byte) : (hundreds v).toNat = v.toNat / 100 :=
  Nat.mod_eq_of_lt (by omega)

theorem tens_toNat (v : Byte) : (tens v).toNat = v.toNat / 10 % 10 :=
  Nat.mod_eq_of_lt (by omega)

theorem units_toNat (v : Byte) : (units v).toNat = v.toNat % 10 :=
  Nat.mod_eq_of_lt (by omega)

/-- Each of the three bytes is written once. -/
theorem bytes_of_digits (s : State) {a : Nat} (h : a + 2 < 4096) (u v w : Byte) :
    (((s.setByte a u).setByte (a + 1) v).setByte (a + 2) w).byte a = u ∧
    (((s.setByte a u).setByte (a + 1) v).setByte (a + 2) w).byte (a + 1) = v ∧
    (((s.setByte a u).setByte (a + 1) v).setByte (a + 2) w).byte (a + 2) = w := by
  have h0 : a < 4096 := by omega
  have h1 : a + 1 < 4096 := by omega
  simp [State.byte_setByte, h0, h1, h]

/-- Settles O45: three writes to three addresses, none of which reaches another's byte. -/
theorem decimalDigitsAreStored : Obligations.DecimalDigitsAreStored := by
  refine ⟨fun x s h => ⟨_, exec_ldBcd_inside h, ?_, ?_, ?_, sameBut_digits s _ _ _ _⟩,
    fun x s h => ⟨_, exec_ldBcd_outside h, raised_raise s _ _⟩⟩
  all_goals
    obtain ⟨hhundreds, htens, hunits⟩ := bytes_of_digits s h (hundreds (s.reg x)) (tens (s.reg x)) (units (s.reg x))
    simp only [hhundreds, htens, hunits, hundreds_toNat, tens_toNat, units_toNat]
    omega

/-! ### Registers to memory and back (R99, R100) -/

section
variable {x : Reg} {s : State}

theorem byte_storeRegs (h : s.i.toNat + x < 4096) {r : Reg} (hr : r ≤ x) :
    (s.storeRegs s.i.toNat (x + 1)).byte (s.i.toNat + r) = s.reg r := by
  obtain ⟨hbytes, _⟩ := s.storeRegs_spec s.i.toNat (count := x + 1) h
  have hr : (r : Nat) ≤ x := hr
  rw [hbytes, if_pos (by omega), Nat.add_sub_cancel_left, regNumber_fin]

theorem sameExcept_storeRegs (h : s.i.toNat + x < 4096) :
    SameExcept (fun p => ∃ r : Reg, r ≤ x ∧ p = .byte (s.i.toNat + r)) s (s.storeRegs s.i.toNat (x + 1)) := by
  obtain ⟨hbytes, m, hm⟩ := s.storeRegs_spec s.i.toNat (count := x + 1) h
  intro p hp
  cases p
  case byte a =>
    refine (hbytes a).trans (if_neg fun ⟨hlow, hhigh⟩ => hp ⟨⟨a - s.i.toNat, by omega⟩, ?_, ?_⟩)
    · show a - s.i.toNat ≤ x
      omega
    · exact congrArg Part.byte (Nat.add_sub_cancel' hlow).symm
  all_goals
    rw [hm]
    rfl

theorem reg_loadRegs (r : Reg) : (s.loadRegs s.i.toNat (x + 1)).reg r =
    if r ≤ x then s.byte (s.i.toNat + r) else s.reg r := by
  obtain ⟨hregs, _⟩ := s.loadRegs_spec s.i.toNat (count := x + 1) x.isLt
  simp only [hregs, Nat.lt_succ_iff, Fin.val_fin_le]

theorem sameExcept_loadRegs :
    SameExcept (fun p => ∃ r : Reg, r ≤ x ∧ p = .reg r) s (s.loadRegs s.i.toNat (x + 1)) := by
  obtain ⟨_, m, hm⟩ := s.loadRegs_spec s.i.toNat (count := x + 1) x.isLt
  intro p hp
  cases p
  case reg r => exact (reg_loadRegs r).trans (if_neg fun hr => hp ⟨r, hr, rfl⟩)
  all_goals
    rw [hm]
    rfl

end

/-- Settles O46: the store of X + 1 bytes from I, or the fault of the range check before it. -/
theorem registersAreStored : Obligations.RegistersAreStored :=
  ⟨fun _ _ h => ⟨_, exec_stRegs_inside h, fun _ => byte_storeRegs h, sameExcept_storeRegs h⟩,
    fun _ s h => ⟨_, exec_stRegs_outside h, raised_raise s _ _⟩⟩

/-- Settles O47: the load of X + 1 bytes from I, or the fault of the range check before it. -/
theorem registersAreLoaded : Obligations.RegistersAreLoaded :=
  ⟨fun _ _ h => ⟨_, exec_ldRegs_inside h, fun _ hr => (reg_loadRegs _).trans (if_pos hr), sameExcept_loadRegs⟩,
    fun _ s h => ⟨_, exec_ldRegs_outside h, raised_raise s _ _⟩⟩

/-- Settles O48: the store leaves I, so the load is in range too and reads the bytes that were stored. -/
theorem loadAfterStoreRestoresRegisters : Obligations.LoadAfterStoreRestoresRegisters := by
  intro x s t u h ht hi hbyte
  cases ht.symm.trans (exec_stRegs_inside h)
  have hi : u.i = s.i := hi.trans (sameExcept_storeRegs h .i (by simp))
  have hinside : u.i.toNat + x < 4096 := hi ▸ h
  refine ⟨_, exec_ldRegs_inside hinside, fun r hr => ?_, fun r hr => ?_⟩
  · rw [reg_loadRegs, if_pos hr, hi, hbyte, byte_storeRegs h hr]
  · rw [reg_loadRegs, if_neg (not_le.mpr hr)]

end Sys2Proof.Machine
end

section
/-! What an instruction can do, said once, and the proofs that follow from it (10_state.md; 60_exceptions.md
R117, R118). -/

namespace Sys2Proof.Machine

/-! ### The parts an instruction may write, and the forms its effect can take -/

/-- The parts of the state that the rules of 10_state.md, 20_memory.md R51 and 60_exceptions.md R117 let an
instruction write. -/
def Writes (i : Instr) : Part → Prop
  | .reg r => WritesReg i r
  | .i => i.mnemonic ∈ ([.ldI, .addI, .ldFont] : List Mnemonic)
  | .pc => i.mnemonic ∈
      ([.jp, .call, .ret, .jpV0, .seImm, .sneImm, .seReg, .sneReg, .skp, .sknp] : List Mnemonic)
  | .dt => i.mnemonic = .ldDtReg
  | .st => i.mnemonic = .ldStReg
  | .stack => i.mnemonic ∈ ([.call, .ret] : List Mnemonic)
  | .pixel _ _ => i.mnemonic ∈ ([.cls, .drw] : List Mnemonic)
  | .latch => i.mnemonic = .ldKey
  | .fault => i.mnemonic ∈ ([.ret, .call, .drw, .skp, .sknp, .ldBcd, .stRegs, .ldRegs] : List Mnemonic)
  | .byte _ => i.mnemonic ∈ ([.ldBcd, .stRegs] : List Mnemonic)
  | .inputs | .host | .draws => False

/-- The state an instruction makes of `s`, by the named operations of the model. -/
inductive Effect (s : State) : Instr → State → Prop
  | register {i : Instr} (x : Reg) (v : Byte) (h : Writes i (.reg x)) : Effect s i (s.setReg x v)
  | flagged {i : Instr} (x : Reg) (f v : Byte) (h : Writes i (.reg x)) (hVF : Writes i (.reg VF)) :
      Effect s i ((s.setReg VF f).setReg x v)
  | index {i : Instr} (v : Word) (h : Writes i .i) : Effect s i (s.setI v)
  | delay (x : Reg) : Effect s (.ldDtReg x) (s.setDt (s.reg x))
  | sound (x : Reg) : Effect s (.ldStReg x) (s.setSt (s.reg x))
  | wait (x : Reg) : Effect s (.ldKey x) (s.enterWait x)
  | jump (nnn : Addr12) : Effect s (.jp nnn) (s.setPc (zext16 nnn))
  | offsetJump (nnn : Addr12) : Effect s (.jpV0 nnn) (s.setPc (offsetTarget nnn (s.reg 0)))
  | call (nnn : Addr12) : Effect s (.call nnn) ((s.push s.pc).setPc (zext16 nnn))
  | ret (ign : Nibble) (a : Word) (h : s.stack.getLast? = some a) :
      Effect s (.ret ign) ({ s with stack := s.stack.dropLast }.setPc a)
  | skip {i : Instr} (b : Bool) (h : Writes i .pc) : Effect s i (s.skipIf b)
  | clear (ign : Nibble) : Effect s (.cls ign) s.clearDisp
  | draw {x y : Reg} {n : Nibble} {u : State} (h : Drawn (SpriteOn s x y n) (s.setReg VF 0) u) :
      Effect s (.drw x y n) u
  | drawFault {x y : Reg} {n : Nibble} {u : State} (h : Drawn (SpriteOn s x y n) (s.setReg VF 0) u) :
      Effect s (.drw x y n) (u.raise (.memOutOfRange (max s.i.toNat 4096)) (encode (.drw x y n)))
  | digits (x : Reg) : Effect s (.ldBcd x) (((s.setByte s.i.toNat (hundreds (s.reg x))).setByte
      (s.i.toNat + 1) (tens (s.reg x))).setByte (s.i.toNat + 2) (units (s.reg x)))
  | store (x : Reg) (h : s.i.toNat + x < 4096) : Effect s (.stRegs x) (s.storeRegs s.i.toNat (x + 1))
  | load (x : Reg) : Effect s (.ldRegs x) (s.loadRegs s.i.toNat (x + 1))
  | fatal {i : Instr} (c : FatalCondition) (h : MayRaise i c s) : Effect s i (s.raise c (encode i))

theorem exec_effect_exists (i : Instr) (s : State) : ∃ t, exec i s = .next t ∧ Effect s i t := by
  cases i
  case ldImm | addImm | ldReg | orReg | andReg | xorReg | rnd | ldRegDt => exact ⟨_, rfl, .register _ _ rfl⟩
  case addReg | subReg | shr | subnReg | shl => exact ⟨_, rfl, .flagged _ _ _ (.inl rfl) (.inr rfl)⟩
  case ldI | addI | ldFont => exact ⟨_, rfl, .index _ (by simp [Writes, Instr.mnemonic])⟩
  case seImm | sneImm | seReg | sneReg => exact ⟨_, rfl, .skip _ (by simp [Writes, Instr.mnemonic])⟩
  case cls ign => exact ⟨_, rfl, .clear ign⟩
  case jp nnn => exact ⟨_, rfl, .jump nnn⟩
  case jpV0 nnn => exact ⟨_, rfl, .offsetJump nnn⟩
  case call nnn => exact ⟨_, rfl, .call nnn⟩
  case ldDtReg x => exact ⟨_, rfl, .delay x⟩
  case ldStReg x => exact ⟨_, rfl, .sound x⟩
  case ldKey x => exact ⟨_, rfl, .wait x⟩
  case ret ign =>
    cases htop : s.stack.getLast? with
    | none => exact ⟨_, exec_ret_of_nil (List.getLast?_eq_none_iff.mp htop) ign, .fatal _ rfl⟩
    | some a => exact ⟨_, exec_ret_of_top htop ign, .ret ign a htop⟩
  case skp x =>
    obtain ⟨k, hk⟩ | habove := exists_key_or_above (s.reg x)
    · exact ⟨_, exec_skp_of_index hk, .skip _ (by simp [Writes, Instr.mnemonic])⟩
    · exact ⟨_, exec_skp_above habove, .fatal _ rfl⟩
  case sknp x =>
    obtain ⟨k, hk⟩ | habove := exists_key_or_above (s.reg x)
    · exact ⟨_, exec_sknp_of_index hk, .skip _ (by simp [Writes, Instr.mnemonic])⟩
    · exact ⟨_, exec_sknp_above habove, .fatal _ rfl⟩
  case drw x y n =>
    obtain ⟨u, hdrawn, hfault, hdone⟩ := exec_drw x y n s
    by_cases hf : SpriteReadFaults s y n
    · exact ⟨_, hfault hf, .drawFault hdrawn⟩
    · exact ⟨_, hdone hf, .draw hdrawn⟩
  case ldBcd x =>
    obtain h | h := Nat.lt_or_ge (s.i.toNat + 2) 4096
    · exact ⟨_, exec_ldBcd_inside h, .digits x⟩
    · exact ⟨_, exec_ldBcd_outside h, .fatal _ rfl⟩
  case stRegs x =>
    obtain h | h := Nat.lt_or_ge (s.i.toNat + x) 4096
    · exact ⟨_, exec_stRegs_inside h, .store x h⟩
    · exact ⟨_, exec_stRegs_outside h, .fatal _ rfl⟩
  case ldRegs x =>
    obtain h | h := Nat.lt_or_ge (s.i.toNat + x) 4096
    · exact ⟨_, exec_ldRegs_inside h, .load x⟩
    · exact ⟨_, exec_ldRegs_outside h, .fatal _ rfl⟩

/-- Settles O16: every form of effect is a next state. -/
theorem everyInstructionGoesOn : Obligations.EveryInstructionGoesOn := fun i s =>
  (exec_effect_exists i s).imp fun _ h => h.1

section
variable {i : Instr} {s t : State}

theorem exec_effect (h : exec i s = .next t) : Effect s i t := by
  obtain ⟨u, hu, heffect⟩ := exec_effect_exists i s
  cases h.symm.trans hu
  exact heffect

/-! ### What each form leaves unchanged -/

theorem writes_fault_of_mayRaise {c : FatalCondition} (h : MayRaise i c s) : Writes i .fault := by
  cases i <;> simp_all [MayRaise, Writes, Instr.mnemonic]

theorem Effect.sameExcept_writes (h : Effect s i t) : SameExcept (Writes i) s t := by
  cases h
  case register x v h => exact (sameBut_setReg s x v).toExcept (by simpa using h)
  case flagged x f v h hVF =>
    exact ((sameBut_setReg s VF f).trans (sameBut_setReg _ x v)).toExcept (by simp [h, hVF])
  case index v h => exact (sameBut_setI s v).toExcept (by simpa using h)
  case delay x => exact (sameBut_setDt s _).toExcept (by simp [Writes, Instr.mnemonic])
  case sound x => exact (sameBut_setSt s _).toExcept (by simp [Writes, Instr.mnemonic])
  case wait x => exact (sameBut_enterWait s x).toExcept (by simp [Writes, Instr.mnemonic])
  case jump nnn => exact (sameBut_setPc s _).toExcept (by simp [Writes, Instr.mnemonic])
  case offsetJump nnn => exact (sameBut_setPc s _).toExcept (by simp [Writes, Instr.mnemonic])
  case call nnn => exact (sameBut_call s _ _).toExcept (by simp [Writes, Instr.mnemonic])
  case ret ign a _ => exact (sameBut_return s _ a).toExcept (by simp [Writes, Instr.mnemonic])
  case skip b h => exact (sameBut_skipIf s b).toExcept (by simpa using h)
  case clear ign => exact (sameExcept_clearDisp s).mono (by rintro _ ⟨c, r, rfl⟩; simp [Writes, Instr.mnemonic])
  case draw x y n h =>
    refine h.sameExcept.mono ?_
    rintro _ (rfl | ⟨c, r, rfl⟩) <;> simp [Writes, WritesReg, Instr.mnemonic]
  case drawFault x y n u h =>
    refine (h.sameExcept.trans (sameBut_raise u _ _)).mono ?_
    rintro p ((rfl | ⟨c, r, rfl⟩) | hp)
    · simp [Writes, WritesReg]
    · simp [Writes, Instr.mnemonic]
    · cases List.mem_singleton.mp hp
      simp [Writes, Instr.mnemonic]
  case digits x => exact (sameBut_digits s _ _ _ _).toExcept (by simp [Writes, Instr.mnemonic])
  case store x h =>
    exact (sameExcept_storeRegs h).mono (by rintro _ ⟨r, _, rfl⟩; simp [Writes, Instr.mnemonic])
  case load x => exact sameExcept_loadRegs.mono (by rintro _ ⟨r, hr, rfl⟩; exact hr)
  case fatal c h => exact (sameBut_raise s c _).toExcept (by simpa using writes_fault_of_mayRaise h)

/-- A part that an instruction changes is one that it may write. -/
theorem writes_of_changed (h : exec i s = .next t) (p : Part) (hchanged : ¬ SamePart s t p) : Writes i p := by
  by_contra hw
  exact hchanged ((exec_effect h).sameExcept_writes p hw)

end

/-- Settles O57: the named instructions are the ones that may write the part. -/
theorem eachPartIsWrittenOnlyByItsInstructions : Obligations.EachPartIsWrittenOnlyByItsInstructions := by
  intro i s t h
  have hframe := (exec_effect h).sameExcept_writes
  exact ⟨writes_of_changed h .i, writes_of_changed h .dt, writes_of_changed h .st, writes_of_changed h .stack,
    fun c r => writes_of_changed h (.pixel c r), writes_of_changed h .latch,
    fun a => writes_of_changed h (.byte a), writes_of_changed h .fault,
    hframe .inputs id, hframe .host id, hframe .draws id⟩

/-- Settles O58: a register that changes is one that the instruction may write. -/
theorem registersAreWrittenOnlyAsListed : Obligations.RegistersAreWrittenOnlyAsListed :=
  fun _ _ _ r h => writes_of_changed h (.reg r)

/-! ### The fault record (R118) -/

section
variable {i : Instr} {s t : State}

/-- An instruction leaves the fault record, or it raises a condition of its own, with `pc` at A + 2. -/
theorem Effect.fault_cases (h : Effect s i t) : t.fault = s.fault ∨ ∃ c, MayRaise i c s ∧
    t.fault = some { condition := c, word := some (encode i), addr := s.pc - 2 } ∧ t.pc = s.pc ∧
    t.latch = s.latch := by
  cases h
  case fatal c h => exact .inr ⟨c, h, rfl, rfl, rfl⟩
  case drawFault x y n u h =>
    have hpc : u.pc = s.pc := h.frame.pc
    refine .inr ⟨_, rfl, ?_, hpc, h.frame.latch⟩
    rw [State.fault_raise, hpc]
  case draw h => exact .inl h.fault
  case skip b h => exact .inl (s.fault_skipIf b)
  case store x h => exact .inl (sameExcept_storeRegs h .fault (by simp))
  case load x => exact .inl (sameExcept_loadRegs .fault (by simp))
  all_goals exact .inl rfl

/-- The places `pc` can be left at (10_state.md section 2). -/
theorem Effect.pc_cases (h : Effect s i t) : t.pc = s.pc ∨ t.pc = s.pc + 2 ∨
    (∃ nnn : Addr12, t.pc = zext16 nnn) ∨ (∃ nnn, t.pc = offsetTarget nnn (s.reg 0)) ∨ t.pc ∈ s.stack := by
  cases h
  case jump nnn => exact .inr (.inr (.inl ⟨nnn, rfl⟩))
  case call nnn => exact .inr (.inr (.inl ⟨nnn, rfl⟩))
  case offsetJump nnn => exact .inr (.inr (.inr (.inl ⟨nnn, rfl⟩)))
  case ret ign a h => exact .inr (.inr (.inr (.inr (List.mem_of_getLast? h))))
  case skip b h =>
    cases b
    · exact .inl rfl
    · exact .inr (.inl rfl)
  case draw h => exact .inl h.frame.pc
  case drawFault h => exact .inl h.frame.pc
  case store x h => exact .inl (sameExcept_storeRegs h .pc (by simp))
  case load x => exact .inl (sameExcept_loadRegs .pc (by simp))
  all_goals exact .inl rfl

/-- A return address is an old one or that of the call under way. -/
theorem Effect.mem_stack (h : Effect s i t) {a : Word} (ha : a ∈ t.stack) : a ∈ s.stack ∨ a = s.pc := by
  cases h
  case call nnn => simpa using ha
  case ret ign b h => exact .inl (List.mem_of_mem_dropLast ha)
  case draw h => exact .inl (h.frame.stack ▸ ha)
  case drawFault h => exact .inl (h.frame.stack ▸ ha)
  case skip b h => exact .inl (s.stack_skipIf b ▸ ha)
  case store x h => exact .inl (sameExcept_storeRegs h .stack (by simp) ▸ ha)
  case load x => exact .inl (sameExcept_loadRegs .stack (by simp) ▸ ha)
  all_goals exact .inl ha

end

/-- Settles O20: the record is the one of the condition raised. -/
theorem instructionsRaiseOnlyTheirOwnCondition : Obligations.InstructionsRaiseOnlyTheirOwnCondition := by
  intro i s t r hs h hr
  obtain hfault | ⟨c, hc, hfault, hpc, _⟩ := (exec_effect h).fault_cases
  · simp [hfault, hs] at hr
  · cases hr.symm.trans hfault
    exact ⟨hc, rfl, rfl, hpc⟩

end Sys2Proof.Machine
end

section
/-! Proofs of how instructions leave `pc`, and of the transfers of control (10_state.md section 2; 40_control.md). -/

namespace Sys2Proof.Machine

/-! ### The program counter (10_state.md section 2) -/

/-- R74: NNN + x[0] is at most 4350, so 16 bits hold it (D4). -/
theorem offsetTarget_toNat (nnn : Addr12) (v : Byte) : (offsetTarget nnn v).toNat = nnn.toNat + v.toNat := by
  rw [offsetTarget, BitVec.toNat_add, zext16_addr12_toNat, zext16_byte_toNat]
  exact Nat.mod_eq_of_lt (by omega)

section
variable {i : Instr} {s t : State}

/-- An instruction other than the transfers of control leaves A + 2, unless it is a skip whose condition holds. -/
theorem exec_pc_of_not_transfer (h : exec i s = .next t)
    (hi : i.mnemonic ∉ ([.jp, .call, .ret, .jpV0] : List Mnemonic)) (hskip : ¬ SkipHolds i s) : t.pc = s.pc := by
  by_cases hskips : i.mnemonic ∈ ([.seImm, .sneImm, .seReg, .sneReg, .skp, .sknp] : List Mnemonic)
  · obtain ⟨u, hu, hpc⟩ := exec_pc_of_not_skipHolds hskips hskip
    cases h.symm.trans hu
    exact hpc
  · have hw : ¬ Writes i .pc := by
      simp only [Writes, List.mem_cons] at hi hskips ⊢
      tauto
    exact (exec_effect h).sameExcept_writes .pc hw

end

/-- Settles O33: the four transfers of control write their target, and of the others only a skip moves `pc`. -/
theorem pcAfterEachInstruction : Obligations.PcAfterEachInstruction := by
  intro i s t h _
  refine ⟨?jump, ?ret, ?offset, fun hi => ⟨fun hskip => ?_, exec_pc_of_not_transfer h hi⟩⟩
  case jump =>
    rintro nnn (rfl | rfl) <;> cases h <;> exact zext16_addr12_toNat nnn
  case ret =>
    rintro ign a rfl htop
    cases h.symm.trans (exec_ret_of_top htop ign)
    rfl
  case offset =>
    rintro nnn rfl
    cases h
    exact offsetTarget_toNat nnn (s.reg 0)
  cases h.symm.trans (exec_of_skipHolds hskip)
  rfl

/-! ### The transfers of control one by one (40_control.md) -/

/-- Settles O27: `pc` is written once, with a sum that 16 bits hold. -/
theorem offsetJumpAddsRegisterZero : Obligations.OffsetJumpAddsRegisterZero := fun nnn s =>
  ⟨_, rfl, offsetTarget_toNat nnn (s.reg 0), sameBut_setPc s _⟩

theorem callUnder_of_room {limit : Option Nat} {s : State} (h : s.stackFull limit = false) (nnn : Addr12) :
    callUnder limit nnn s = (s.push s.pc).setPc (zext16 nnn) := by
  rw [callUnder, h]
  rfl

theorem callUnder_of_full {limit : Option Nat} {s : State} (h : s.stackFull limit = true) (nnn : Addr12) :
    callUnder limit nnn s = s.raise .stackOverflow (encode (.call nnn)) := if_pos h

/-- Settles O28: the limit decides between the push with its jump and the fault. -/
theorem callPushesTheReturnAddress : Obligations.CallPushesTheReturnAddress := by
  refine ⟨fun nnn s => ⟨_, rfl, zext16_addr12_toNat nnn, rfl, sameBut_call s _ _⟩, fun l nnn s h => ?_,
    fun l nnn s h => ?_⟩
  · rw [callUnder_of_room (limit := some l) (decide_eq_false (Nat.not_le.mpr h))]
    exact ⟨zext16_addr12_toNat nnn, rfl, sameBut_call s _ _⟩
  · rw [callUnder_of_full (limit := some l) (decide_eq_true h)]
    exact raised_raise s _ _

theorem exec_ret_of_concat {s : State} {rest : List Word} {a : Word} (h : s.stack = rest ++ [a]) (ign : Nibble) :
    exec (.ret ign) s = .next ({ s with stack := rest }.setPc a) := by
  rw [exec_ret_of_top (by rw [h, List.getLast?_concat]), h, List.dropLast_concat]

/-- Settles O29: an entry is popped into `pc`, or the stack is empty and the record is all that changes. -/
theorem returnPopsTheStack : Obligations.ReturnPopsTheStack :=
  ⟨fun ign s a rest h => ⟨_, exec_ret_of_concat h ign, rfl, rfl, sameBut_return s rest a⟩,
    fun ign s h => ⟨_, exec_ret_of_nil h ign, raised_raise s _ _⟩⟩

end Sys2Proof.Machine
end

section
/-! Proofs of instructions that write one part (41_alu.md R93; 44_timers_input.md R108 to R115). -/

namespace Sys2Proof.Machine

theorem maskOf_n_getElem (nn : Byte) (k : Fin 8) : (maskOf .n nn)[k] = (decide ((k : Nat) < 4) && nn[k]) := by
  simp [maskOf]

theorem rndUnder_getElem (mask : RandMask) (x : Reg) (nn : Byte) (s : State) (k : Fin 8) :
    ((rndUnder mask x nn s).reg x)[k] = (s.rand8[k] && (maskOf mask nn)[k]) := by
  rw [rndUnder, State.reg_setReg_same]
  exact BitVec.getElem_and k.isLt

/-- Settles O43: one register is written, with the byte masked bit by bit. -/
theorem randomByteIsMasked : Obligations.RandomByteIsMasked := by
  intro x nn s
  refine ⟨⟨_, rfl, sameBut_setReg s x _, fun k => ?_⟩, sameBut_setReg s x _, rndUnder_getElem .nn x nn s⟩
  rw [← maskOf_n_getElem]
  exact rndUnder_getElem .n x nn s k

/-- Settles O53: with a key index they are a skip on its entry, and without one only the record is set. -/
theorem keySkipsReadTheSnapshot : Obligations.KeySkipsReadTheSnapshot := by
  refine ⟨fun x k s h => ⟨⟨_, exec_skp_of_index h, s.pc_skipIf _, sameBut_skipIf s _⟩,
      ⟨_, exec_sknp_of_index h, ?_, sameBut_skipIf s _⟩⟩,
    fun x s h => ⟨⟨_, exec_skp_above h, raised_raise s _ _⟩, ⟨_, exec_sknp_above h, raised_raise s _ _⟩⟩⟩
  rw [State.pc_skipIf]
  cases s.key k <;> rfl

/-- Settles O54: each transfer writes its one target. -/
theorem timerTransfersCopy : Obligations.TimerTransfersCopy := fun x s =>
  ⟨⟨_, rfl, s.reg_setReg_same x s.dt, sameBut_setReg s x _⟩, ⟨_, rfl, rfl, sameBut_setDt s _⟩,
    ⟨_, rfl, rfl, sameBut_setSt s _⟩⟩

/-- Settles O55: the latch is the only part written, and it decides the status of a core without a fault. -/
theorem keyWaitSetsTheLatch : Obligations.KeyWaitSetsTheLatch := fun x s =>
  ⟨_, rfl, rfl, fun h => (State.status_waiting _).mpr ⟨h, rfl⟩, sameBut_enterWait s x⟩

end Sys2Proof.Machine
end

section
/-! Proofs of the canonical form of memory and of the loaded machine (20_memory.md R39, R44, R51;
70_reset_and_hazards.md R134, R135). -/

namespace Sys2Proof.Machine

/-! ### The canonical form is determined by its reads -/

theorem cellsWf_cons {low a : Nat} {v : Byte} {rest : Memory} : cellsWf low ((a, v) :: rest) = true ↔
    low ≤ a ∧ a < 4096 ∧ v ≠ resetByte a ∧ cellsWf (a + 1) rest = true := by
  simp [cellsWf, and_assoc]

theorem readCell_below {m : Memory} {low a : Nat} (h : cellsWf low m = true) (ha : a < low) :
    readCell m a = resetByte a := by
  induction m generalizing low with
  | nil => rfl
  | cons cell rest ih =>
    obtain ⟨hlow, _, _, hrest⟩ := cellsWf_cons.mp h
    rw [readCell, if_neg (by omega), ih hrest (by omega)]

/-- A canonical memory that reads a first cell's byte has a cell there, so it does not begin above it. -/
theorem le_of_readCell_head {m' : Memory} {low b a : Nat} {v : Byte} {rest : Memory}
    (h : cellsWf low ((a, v) :: rest) = true) (h' : cellsWf b m' = true)
    (hread : readCell ((a, v) :: rest) a = readCell m' a) : b ≤ a := by
  obtain ⟨_, _, hv, _⟩ := cellsWf_cons.mp h
  by_contra hlt
  rw [readCell_below h' (by omega), readCell, if_pos rfl] at hread
  exact hv hread

theorem memory_ext {m m' : Memory} {low : Nat} (h : cellsWf low m = true) (h' : cellsWf low m' = true)
    (hread : ∀ a, readCell m a = readCell m' a) : m = m' := by
  induction m generalizing low m' with
  | nil =>
    cases m' with
    | nil => rfl
    | cons cell' rest' =>
      have := le_of_readCell_head h' (b := cell'.1 + 1) (m' := []) rfl (hread _).symm
      omega
  | cons cell rest ih =>
    cases m' with
    | nil =>
      have := le_of_readCell_head h (b := cell.1 + 1) (m' := []) rfl (hread _)
      omega
    | cons cell' rest' =>
      obtain ⟨a, v⟩ := cell
      obtain ⟨b, u⟩ := cell'
      obtain ⟨_, ha, hv, hrest⟩ := cellsWf_cons.mp h
      obtain ⟨_, hb, hu, hrest'⟩ := cellsWf_cons.mp h'
      have hba : b ≤ a := le_of_readCell_head h (cellsWf_cons.mpr ⟨le_rfl, hb, hu, hrest'⟩) (hread a)
      have hab : a ≤ b := le_of_readCell_head h' (cellsWf_cons.mpr ⟨le_rfl, ha, hv, hrest⟩) (hread b).symm
      obtain rfl : a = b := le_antisymm hab hba
      have hhead : v = u := by simpa [readCell] using hread a
      have htail : rest = rest' := ih hrest hrest' fun c => by
        by_cases hc : c = a
        · rw [readCell_below hrest (by omega), readCell_below hrest' (by omega)]
        · simpa [readCell, hc] using hread c
      rw [hhead, htail]

/-- Settles O25: the first cells must be the same, and then the rest read alike. -/
theorem canonicalMemoryIsDeterminedByReads : Obligations.CanonicalMemoryIsDeterminedByReads :=
  fun _ _ h h' => memory_ext h h'

/-! ### The loaded machine -/

theorem loadedMemory_wf (fnt : Vector Byte 80) (image : List Byte) : (loadedMemory fnt image).wf = true :=
  writeCells_wf _ _ (writeCells_wf _ _ (writeCells_wf _ _ reset_memory_wf))

/-- With the default font and no image, what is loaded reads as reset memory, and both are canonical. -/
theorem loadedMemory_default {fnt : Vector Byte 80} (h : fnt.toList = font) : loadedMemory fnt [] = [] := by
  refine memory_ext (loadedMemory_wf fnt []) reset_memory_wf fun a => ?_
  by_cases ha : a < 80
  · have hbyte : fnt[a] = resetByte a := by
      rw [resetByte, ← h, List.getD_eq_getElem _ _ (by simpa using ha)]
      simp
    rw [← show readCell State.reset.mem a = resetByte a from rfl] at hbyte
    exact (readCell_loadedMemory_font (by decide) ⟨a, ha⟩).trans hbyte
  · rw [readCell_loadedMemory_zero (by decide) (by omega) (by simp; omega)]
    exact (resetByte_above_font (by omega)).symm

theorem load_of_not_fits {fnt : Vector Byte 80} {image : List Byte} (h : 4096 < 512 + image.length) :
    load fnt image = .refused (.loadImageTooLarge image.length) :=
  if_neg (by simpa [imageFits] using h)

theorem load_next {fnt : Vector Byte 80} {image : List Byte} {t : State} (h : load fnt image = .next t) :
    512 + image.length ≤ 4096 ∧ t = { State.reset with mem := loadedMemory fnt image } := by
  obtain hlarge | hfits := Nat.lt_or_ge 4096 (512 + image.length)
  · cases h.symm.trans (load_of_not_fits hlarge)
  · cases h.symm.trans (load_of_fits hfits)
    exact ⟨hfits, rfl⟩

/-- Settles O22: only memory differs from reset, and with the default font not even memory. -/
theorem loadResetsEverythingElse : Obligations.LoadResetsEverythingElse := by
  refine ⟨fun fnt image t h => ?_, fun fnt h => ?_⟩
  · obtain ⟨_, rfl⟩ := load_next h
    refine ⟨fun r => ?_, rfl, rfl, rfl, rfl, rfl, fun c r => ?_, rfl, rfl, rfl, rfl, rfl, rfl⟩
    · simp [State.reg, State.reset]
    · simp [State.pixel, State.reset]
  · rw [load_of_fits (by decide), loadedMemory_default h]
    rfl

/-- Settles O23: 3584 bytes are what lies between the image base and the end of memory. -/
theorem oversizedImageIsRefused : Obligations.OversizedImageIsRefused := fun _ _ =>
  ⟨fun h => load_of_not_fits (by omega), fun h => ⟨_, load_of_fits (by omega)⟩⟩

end Sys2Proof.Machine
end

section
/-! Proofs of the host's actions and the instruction cycle (30_encoding.md R60 to R65; 60_exceptions.md R118 to
R127). -/

namespace Sys2Proof.Machine

/-! ### Fetch -/

/-- Settles O9: the fetched word is the one of the two bytes, and their number is the word's. -/
theorem fetchIsBigEndian : Obligations.FetchIsBigEndian := fun _ h =>
  ⟨_, State.fetch_inside h, wordOfBytes_toNat _ _⟩

theorem State.fetch_ok {s : State} {w : Word} (h : s.fetch = .ok w) : s.pc.toNat + 1 < 4096 := by
  by_contra hout
  cases h.symm.trans (State.fetch_outside (Nat.not_lt.mp hout))

theorem State.fetch_error {s : State} {c : FatalCondition} (h : s.fetch = .error c) :
    c = .memOutOfRange (max s.pc.toNat 4096) := by
  obtain hin | hout := Nat.lt_or_ge (s.pc.toNat + 1) 4096
  · cases h.symm.trans (State.fetch_inside hin)
  · cases h.symm.trans (State.fetch_outside hout)
    rfl

/-! ### The forms of an instruction cycle and of an action -/

theorem instructionCycle_of_fetch_error {s : State} {c : FatalCondition} (h : s.fetch = .error c) :
    instructionCycle s = .next (s.raiseFetch c) := by
  rw [instructionCycle, h]

theorem instructionCycle_of_illegal {s : State} {w : Word} {e : DecodeError} (h : s.fetch = .ok w)
    (hw : decodeWord w = .error e) : instructionCycle s = .next (s.advance.raise .illegalInstruction w) := by
  simp only [instructionCycle, h, hw]

theorem instructionCycle_of_decoded {s : State} {w : Word} {i : Instr} (h : s.fetch = .ok w)
    (hw : decodeWord w = .ok i) : instructionCycle s = exec i s.advance := by
  simp only [instructionCycle, h, hw]

/-- What a step of the core can do (R120): a fetch fault, an illegal word, or an instruction. -/
inductive Cycle (s : State) : State → Prop
  | fetchFault (h : s.fetch = .error (.memOutOfRange (max s.pc.toNat 4096))) :
      Cycle s (s.raiseFetch (.memOutOfRange (max s.pc.toNat 4096)))
  | illegal (w : Word) (h : s.fetch = .ok w) : Cycle s (s.advance.raise .illegalInstruction w)
  | instruction (w : Word) (i : Instr) (t : State) (h : s.fetch = .ok w)
      (hexec : exec i s.advance = .next t) : Cycle s t

theorem instructionCycle_next {s t : State} (h : instructionCycle s = .next t) : Cycle s t := by
  cases hf : s.fetch with
  | error c =>
    cases h.symm.trans (instructionCycle_of_fetch_error hf)
    cases State.fetch_error hf
    exact .fetchFault hf
  | ok w =>
    cases hw : decodeWord w with
    | error e =>
      cases h.symm.trans (instructionCycle_of_illegal hf hw)
      exact .illegal w hf
    | ok i => exact .instruction w i t hf ((instructionCycle_of_decoded hf hw).symm.trans h)

/-- What an action of the host that happens can be (R124 to R126). -/
inductive Action (s : State) : HostAction → State → Prop
  | tick : Action s .tick s.tick
  | resume (k : Fin 16) (h : s.latch.active = true) : Action s (.resume k) (s.resume k)
  | step (key : KeySnapshot) (rand8 : Byte) (t : State) (h : s.latch.active = false)
      (hcycle : Cycle (s.withInputs key rand8) t) : Action s (.step key rand8) t.endStep

theorem act_next {a : HostAction} {s t : State} (h : act a s = .next t) : s.fault = none ∧ Action s a t := by
  unfold act at h
  split at h
  · cases h
  next hfault =>
  refine ⟨hfault, ?_⟩
  split at h
  · cases h
    exact .tick
  next k =>
    split at h <;> cases h
    exact .resume k ‹_›
  next key rand8 =>
    split at h
    · cases h
    next hlatch =>
    obtain ⟨u, hu, rfl⟩ := onNext_eq_next h
    exact .step key rand8 u (Bool.eq_false_iff.mpr hlatch) (instructionCycle_next hu)

end Sys2Proof.Machine
end

section
/-! Proofs of single actions of the host (30_encoding.md R60 to R65; 60_exceptions.md R118 to R127). -/

namespace Sys2Proof.Machine

/-! ### Frames around a step -/

section
variable (s : State)

theorem sameBut_withInputs (key : KeySnapshot) (rand8 : Byte) : SameBut [.inputs] s (s.withInputs key rand8) := by
  intro p hp
  cases p <;> simp_all [SamePart]

theorem sameBut_raiseFetch (c : FatalCondition) : SameBut [.fault] s (s.raiseFetch c) := by
  intro p hp
  cases p <;> simp_all [SamePart]

theorem sameBut_advance : SameBut [.pc] s s.advance := sameBut_setPc s _

theorem sameBut_tick : SameBut [.dt, .st] s s.tick := by
  intro p hp
  cases p <;> simp_all [SamePart]

/-- A step changes what its instruction cycle changes, and the inputs. -/
theorem SameBut.step {l : List Part} {t : State} (key : KeySnapshot) (rand8 : Byte)
    (h : SameBut l (s.withInputs key rand8) t) : SameBut (l ++ [.inputs]) s t.endStep :=
  (((sameBut_withInputs s key rand8).trans h).trans (sameBut_endStep t)).mono (by simp +contextual [or_imp])

end

/-! ### A step that is fatal before the dispatch -/

/-- Settles O10: the fetch fault is raised before the advance. -/
theorem fetchPastMemoryIsFatal : Obligations.FetchPastMemoryIsFatal := by
  intro s key rand8 hrun h
  have hfetch : (s.withInputs key rand8).fetch = .error (.memOutOfRange (max s.pc.toNat 4096)) :=
    State.fetch_outside h
  refine ⟨_, ?_, rfl, rfl, rfl, (SameBut.step s key rand8 (sameBut_raiseFetch _ _)).mono (by simp)⟩
  rw [act_step_of_running hrun, instructionCycle_of_fetch_error hfetch, onNext_next]

theorem act_step_of_illegal {s : State} {w : Word} {e : DecodeError} (hrun : s.status = .running)
    (hfetch : s.fetch = .ok w) (hw : decodeWord w = .error e) (key : KeySnapshot) (rand8 : Byte) :
    act (.step key rand8) s =
      .next ((s.withInputs key rand8).advance.raise .illegalInstruction w).endStep := by
  rw [act_step_of_running hrun, instructionCycle_of_illegal (s := s.withInputs key rand8) hfetch hw, onNext_next]

/-- A in the record is the address before the advance. -/
theorem add_two_sub_two (pc : Word) : pc + 2 - 2 = pc := BitVec.add_sub_cancel pc 2

/-- Settles O11: the condition is raised after the advance, in a state that differs in `pc` only. -/
theorem illegalInstructionIsFatal : Obligations.IllegalInstructionIsFatal := by
  intro s key rand8 w e hrun hfetch hw
  refine ⟨_, act_step_of_illegal hrun hfetch hw key rand8, ?_, rfl, rfl, rfl,
    (SameBut.step s key rand8 ((sameBut_advance _).trans (sameBut_raise _ _ w))).mono (by simp)⟩
  rw [State.fault_endStep, State.fault_raise, State.pc_advance, State.pc_withInputs, add_two_sub_two]

/-- Settles O24: the two bytes at the entry point are 0, and no row of family 0 has the low byte 0. -/
theorem emptyImageEndsAtOnce : Obligations.EmptyImageEndsAtOnce := by
  intro fnt t key rand8 h
  obtain ⟨_, rfl⟩ := load_next h
  have hzero : ∀ a, 512 ≤ a → readCell (loadedMemory fnt []) a = 0 := fun a ha =>
    readCell_loadedMemory_zero (by decide) (by omega) (.inr ha)
  have hfetch : { State.reset with mem := loadedMemory fnt [] }.fetch = .ok 0x0000 := by
    rw [State.fetch_inside (show (512 : Word).toNat + 1 < 4096 by decide)]
    simp only [State.byte]
    rw [hzero _ (by simp [State.reset]), hzero _ (by simp [State.reset])]
    rfl
  obtain ⟨u, hu, hfault, _, hpc, _⟩ :=
    illegalInstructionIsFatal _ key rand8 0x0000 .illegalFamily0 rfl hfetch rfl
  exact ⟨u, hu, hfault, hpc⟩

/-! ### Taking the next action off the host's list -/

theorem dropAction_of_cons {s : State} {a : HostAction} {rest : List HostAction} (h : s.host = a :: rest) :
    s.dropAction = { s with host := rest } := by
  rw [State.dropAction, h]

theorem dropAction_of_nil {s : State} (h : s.host = []) : s.dropAction = { s with draws := s.draws + 1 } := by
  rw [State.dropAction, h]

theorem nextAction_of_cons {s : State} {a : HostAction} {rest : List HostAction} (h : s.host = a :: rest) :
    s.nextAction = a := by
  rw [State.nextAction, h]

theorem nextAction_of_nil {s : State} (h : s.host = []) :
    s.nextAction = .step (Config.freeKeys s.draws) (Config.freeRand8 s.draws) := by
  rw [State.nextAction, h]

theorem sameBut_setHost (s : State) (l : List HostAction) : SameBut [.host] s { s with host := l } := by
  intro p hp
  cases p
  case host => exact absurd (by simp) hp
  all_goals rfl

theorem sameBut_setDraws (s : State) (n : Nat) : SameBut [.draws] s { s with draws := n } := by
  intro p hp
  cases p
  case draws => exact absurd (by simp) hp
  all_goals rfl

/-- Only the host's list and the draws differ after the next action has been taken off. -/
theorem dropAction_eq (s : State) : ∃ l n, s.dropAction = { s with host := l, draws := n } := by
  cases h : s.host with
  | nil => exact ⟨s.host, _, dropAction_of_nil h⟩
  | cons a rest => exact ⟨rest, s.draws, dropAction_of_cons h⟩

theorem decodeWord_of_decode_pair {high low : Byte} {i : Instr} (h : decode [high, low] = .ok (i, [])) :
    decodeWord (wordOfBytes high low) = .ok i := by
  rw [decode] at h
  cases hw : decodeWord (wordOfBytes high low) <;> rw [hw] at h <;> cases h
  rfl

/-- Settles O12: the action taken off touches neither what a fetch reads nor the status. -/
theorem stepRunsTheDecodedInstruction : Obligations.StepRunsTheDecodedInstruction := by
  refine ⟨fun s key rand8 i hfault hlatch hnext hpc hdecode _ => ?_, fun s a rest h => ?_, fun s h => ?_,
    fun s => ⟨rfl, sameBut_advance s⟩⟩
  · obtain ⟨l, n, hdrop⟩ := dropAction_eq s
    have hrun : s.dropAction.status = .running := by
      rw [hdrop]
      exact (State.status_running _).mpr ⟨hfault, hlatch⟩
    have hfetch : s.dropAction.fetch = s.fetch := by
      rw [hdrop]
      rfl
    rw [step, hnext]
    exact act_step_of_fetch hrun (hfetch.trans (State.fetch_inside hpc)) (decodeWord_of_decode_pair hdecode) key rand8
  · rw [dropAction_of_cons h]
    exact ⟨nextAction_of_cons h, rfl, sameBut_setHost s rest⟩
  · rw [dropAction_of_nil h]
    exact ⟨nextAction_of_nil h, rfl, sameBut_setDraws s _⟩

/-! ### Tick and resumption -/

theorem countDown_toNat (v : Byte) : (countDown v).toNat = v.toNat - 1 := by
  unfold countDown
  split
  · simp_all
  · bv_omega

theorem act_tick {s : State} (h : s.fault = none) : act .tick s = .next s.tick := by
  rw [act, h]

/-- Settles O13: the status does not matter as long as there is no fault record. -/
theorem tickCountsBothTimersDown : Obligations.TickCountsBothTimersDown := fun s h =>
  ⟨_, act_tick h, countDown_toNat s.dt, countDown_toNat s.st, sameBut_tick s⟩

theorem act_resume {s : State} (h : s.status = .waiting) (k : Fin 16) : act (.resume k) s = .next (s.resume k) := by
  obtain ⟨hfault, hlatch⟩ := s.status_waiting.mp h
  simp [act, hfault, hlatch]

theorem reg_resume (s : State) (k : Fin 16) : ((s.resume k).reg s.latch.target).toNat = k := by
  have hkey : (s.resume k).reg s.latch.target = BitVec.ofNat 8 k := s.reg_setReg_same _ _
  rw [hkey, BitVec.toNat_ofNat]
  omega

theorem status_resume {s : State} (h : s.fault = none) (k : Fin 16) : (s.resume k).status = .running :=
  (State.status_running _).mpr ⟨h, rfl⟩

theorem sameBut_resume (s : State) (k : Fin 16) : SameBut [.reg s.latch.target, .latch] s (s.resume k) := by
  intro p hp
  cases p
  case reg r => exact s.reg_setReg_other (by simpa using hp) _
  case latch => exact absurd (by simp) hp
  all_goals rfl

/-- Settles O14: one register write, and the latch cleared with its target kept. -/
theorem resumeDeliversTheKey : Obligations.ResumeDeliversTheKey := fun s k h =>
  ⟨_, act_resume h k, reg_resume s k, rfl, rfl, status_resume (s.status_waiting.mp h).1 k, sameBut_resume s k⟩

theorem act_step_of_waiting {s : State} (h : s.status = .waiting) (key : KeySnapshot) (rand8 : Byte) :
    act (.step key rand8) s = .fault .stepWhileWaiting := by
  obtain ⟨hfault, hlatch⟩ := s.status_waiting.mp h
  simp [act, hfault, hlatch]

/-- Settles O15: the enabling condition is looked at before anything else. -/
theorem actionsNotEnabledStop : Obligations.ActionsNotEnabledStop := by
  refine ⟨fun s r a h => ?_, fun s key rand8 h => act_step_of_waiting h key rand8, fun s k h => ?_⟩
  · simp only [act, h]
  · obtain ⟨hfault, hlatch⟩ := s.status_running.mp h
    simp [act, hfault, hlatch]

end Sys2Proof.Machine
end

section
/-! Proofs of traces of two and more actions (40_control.md R71 to R73; 60_exceptions.md R124 to R126, R132). -/

namespace Sys2Proof.Machine

section
variable {s : State} (hrun : s.status = .running) (key : KeySnapshot) (rand8 : Byte)
include hrun

theorem act_step_call {nnn : Addr12} (hfetch : s.fetch = .ok (encode (.call nnn))) :
    act (.step key rand8) s = .next
      { s with pc := zext16 nnn, stack := s.stack ++ [s.pc + 2], inputs := StepInputs.idle } := by
  rw [act_step_of_fetch hrun hfetch (decodeWord_encode _)]
  rfl

theorem act_step_ret {ign : Nibble} {rest : List Word} {a : Word} (hfetch : s.fetch = .ok (encode (.ret ign)))
    (hstack : s.stack = rest ++ [a]) :
    act (.step key rand8) s = .next { s with pc := a, stack := rest, inputs := StepInputs.idle } := by
  rw [act_step_of_fetch hrun hfetch (decodeWord_encode _),
    exec_ret_of_concat (s := (s.withInputs key rand8).advance) hstack]
  rfl

theorem act_step_ldKey {x : Reg} (hfetch : s.fetch = .ok (encode (.ldKey x))) :
    ∃ u, act (.step key rand8) s = .next u ∧ u.status = .waiting ∧ u.latch.target = x ∧ u.pc = s.pc + 2 ∧
      SameBut [.pc, .latch, .inputs] s u := by
  have hstep := act_step_of_fetch hrun hfetch (decodeWord_encode _) key rand8
  exact ⟨_, hstep, (State.status_waiting _).mpr ⟨(s.status_running.mp hrun).1, rfl⟩, rfl, rfl,
    SameBut.step s key rand8 ((sameBut_advance _).trans (sameBut_enterWait _ x))⟩

end

/-- Settles O30: the RET pops what the CALL pushed, the address after the CALL. -/
theorem callThenReturnResumesAfterTheCall : Obligations.CallThenReturnResumesAfterTheCall := by
  intro s nnn ign k1 k2 r1 r2 hrun hcall hret
  exact ⟨_, (s.setPc (s.pc + 2)).endStep, act_step_call hrun k1 r1 hcall,
    act_step_ret (s := { s with pc := zext16 nnn, stack := s.stack ++ [s.pc + 2], inputs := StepInputs.idle })
      hrun k2 r2 hret rfl,
    rfl, (sameBut_setPc s _).trans (sameBut_endStep _)⟩

/-- Settles O34: the target is the address of the jump itself, so `pc` is back where it was. -/
theorem jumpToItselfChangesNothing : Obligations.JumpToItselfChangesNothing := by
  intro s nnn key rand8 hrun hidle hpc hfetch
  have htarget : zext16 nnn = s.pc := BitVec.eq_of_toNat_eq ((zext16_addr12_toNat nnn).trans hpc.symm)
  constructor
  · rw [act_step_of_fetch hrun hfetch (decodeWord_encode _)]
    show Host.Outcome.next { s with pc := zext16 nnn, inputs := StepInputs.idle } = _
    rw [htarget, ← hidle]
  · rw [State.endOfRun, hfetch]
    simp [encode, htarget]

/-- Settles O56: no step happens while the latch is set, and the resumption clears it without moving `pc`. -/
theorem keyWaitRunsToItsResumption : Obligations.KeyWaitRunsToItsResumption := by
  intro s x k key key' rand8 rand8' hrun hfetch
  obtain ⟨u, hstep, hwait, rfl, hpc, hframe⟩ := act_step_ldKey hrun key rand8 hfetch
  have hfault : u.fault = none := (u.status_waiting.mp hwait).1
  have hdt : u.dt = s.dt := hframe .dt (by simp)
  have hst : u.st = s.st := hframe .st (by simp)
  exact ⟨u, u.tick, u.tick.resume k, hstep, hwait, act_step_of_waiting hwait key' rand8', act_tick hfault,
    act_resume (s := u.tick) hwait k, status_resume (s := u.tick) hfault k, reg_resume u.tick k, hpc,
    hdt ▸ countDown_toNat u.dt, hst ▸ countDown_toNat u.st,
    ((hframe.trans (sameBut_tick u)).trans (sameBut_resume u.tick k)).mono (by simp)⟩

end Sys2Proof.Machine
end

section
/-! Proofs of the invariant of the machine (10_state.md section 2; 60_exceptions.md R118, R119). -/

namespace Sys2Proof.Machine

/-! ### The states before the first step -/

/-- Settles O18: every clause is about a value that reset gives. -/
theorem resetMeetsTheInvariant : Obligations.ResetMeetsTheInvariant where
  memory := reset_memory_wf
  pcRange := by decide
  returns _ ha := absurd ha List.not_mem_nil
  depth _ _ := Nat.zero_le _
  idle := rfl
  record _ hr := nomatch hr

/-- Settles O19: a loaded machine is reset with another canonical memory. -/
theorem loadedMachineMeetsTheInvariant : Obligations.LoadedMachineMeetsTheInvariant := by
  intro fnt image t h
  obtain ⟨_, rfl⟩ := load_next h
  exact { resetMeetsTheInvariant with memory := loadedMemory_wf fnt image }

/-! ### One instruction -/

section
variable {i : Instr} {s t : State}

/-- From a fetched instruction's A + 2 every target of R71 to R78 lies in 0 to 4350 (D4). -/
theorem Effect.pc_le (h : Effect s i t) (hpc : s.pc.toNat ≤ 4096) (hreturns : ∀ a ∈ s.stack, a.toNat ≤ 4096) :
    t.pc.toNat ≤ 4350 := by
  obtain hsame | hskip | ⟨nnn, hjump⟩ | ⟨nnn, hoffset⟩ | hret := h.pc_cases
  · rw [hsame]
    omega
  · rw [hskip]
    bv_omega
  · rw [hjump, zext16_addr12_toNat]
    omega
  · rw [hoffset, offsetTarget_toNat]
    omega
  · have := hreturns _ hret
    omega

theorem Effect.returns_le (h : Effect s i t) (hpc : s.pc.toNat ≤ 4096)
    (hreturns : ∀ a ∈ s.stack, a.toNat ≤ 4096) : ∀ a ∈ t.stack, a.toNat ≤ 4096 := by
  intro a ha
  obtain hold | rfl := h.mem_stack ha
  · exact hreturns a hold
  · exact hpc

/-- A record set by an instruction fetched in range is precise: it is set with `pc` at A + 2. -/
theorem Effect.recordPrecise (h : Effect s i t) (hfault : s.fault = none) (hlatch : s.latch.active = false)
    (haddr : (s.pc - 2).toNat ≤ 4094) : t.recordPrecise := by
  intro r hr
  obtain hsame | ⟨c, _, hrecord, hpc, hwait⟩ := h.fault_cases
  · simp [hsame, hfault] at hr
  · cases hr.symm.trans hrecord
    refine ⟨hwait ▸ hlatch, nofun, fun w _ => ⟨?_, haddr⟩⟩
    rw [hpc, BitVec.sub_add_cancel]

end

/-! ### One instruction cycle -/

/-- What an instruction cycle keeps: the invariant without its clauses on the inputs, which the end of the step
sets, and on the depth, which the default STACK_LIMIT leaves free (D15). -/
structure State.CycleInv (s : State) : Prop where
  memory : s.mem.wf = true
  pcRange : s.pc.toNat ≤ 4350
  returns : ∀ a ∈ s.stack, a.toNat ≤ 4096
  record : s.recordPrecise

theorem State.CycleInv.endStep {s : State} (h : s.CycleInv) : s.endStep.Inv where
  memory := h.memory
  pcRange := h.pcRange
  returns := h.returns
  depth _ hl := nomatch hl
  idle := rfl
  record := h.record

section
variable {s t : State} (hinv : s.Inv) (hfault : s.fault = none) (hlatch : s.latch.active = false)
include hinv hfault hlatch

theorem Cycle.keeps_inv {key : KeySnapshot} {rand8 : Byte} (h : Cycle (s.withInputs key rand8) t) : t.CycleInv := by
  cases h with
  | fetchFault h =>
    refine ⟨hinv.memory, hinv.pcRange, hinv.returns, fun r hr => ?_⟩
    cases hr
    exact ⟨hlatch, fun _ => ⟨rfl, _, rfl, le_max_right _ _⟩, nofun⟩
  | illegal w h =>
    have hpc : s.pc.toNat + 1 < 4096 := State.fetch_ok h
    have hpcRange : (s.pc + 2).toNat ≤ 4350 := by bv_omega
    refine ⟨hinv.memory, hpcRange, hinv.returns, fun r hr => ?_⟩
    cases hr
    have haddr : (s.pc + 2 - 2).toNat ≤ 4094 := by rw [add_two_sub_two]; omega
    exact ⟨hlatch, nofun, fun w _ => ⟨(BitVec.sub_add_cancel (s.pc + 2) 2).symm, haddr⟩⟩
  | instruction w i t h hexec =>
    have hpc : s.pc.toNat + 1 < 4096 := State.fetch_ok h
    have hadvanced : (s.pc + 2).toNat ≤ 4096 := by bv_omega
    have haddr : (s.pc + 2 - 2).toNat ≤ 4094 := by rw [add_two_sub_two]; omega
    have heffect := exec_effect hexec
    exact ⟨exec_wf hexec hinv.memory, heffect.pc_le hadvanced hinv.returns,
      heffect.returns_le hadvanced hinv.returns, heffect.recordPrecise hfault hlatch haddr⟩

end

/-! ### Every action of the host -/

theorem inv_dropAction {s : State} (h : s.Inv) : s.dropAction.Inv := by
  obtain ⟨l, n, hdrop⟩ := dropAction_eq s
  rw [hdrop]
  exact { h with }

theorem inv_tick {s : State} (h : s.Inv) : s.tick.Inv := { h with }

/-- A resumption happens without a fault record, so it cannot make one imprecise. -/
theorem inv_resume {s : State} (h : s.Inv) (hfault : s.fault = none) (k : Fin 16) : (s.resume k).Inv :=
  { h with record := fun _ hr => nomatch hfault.symm.trans hr }

theorem act_keeps_inv {a : HostAction} {s t : State} (hinv : s.Inv) (h : act a s = .next t) : t.Inv := by
  obtain ⟨hfault, haction⟩ := act_next h
  cases haction with
  | tick => exact inv_tick hinv
  | resume k _ => exact inv_resume hinv hfault k
  | step key rand8 t hlatch hcycle => exact (hcycle.keeps_inv hinv hfault hlatch).endStep

/-- Settles O17: taking the next action off keeps the invariant, and so does every action that happens. -/
theorem stepKeepsTheInvariant : Obligations.StepKeepsTheInvariant := fun _ _ hinv h =>
  act_keeps_inv (inv_dropAction hinv) h

end Sys2Proof.Machine
end

section
/-! Proofs of what no instruction reads: related states stay related (10_state.md sections 4, 7, 8 and 9). -/

namespace Sys2Proof.Machine

/-! ### Relations that the named operations keep -/

/-- Related states agree on what the meanings of instructions read (the inputs apart), and stay related when the
same value is written to both. -/
structure Simulation (R : State → State → Prop) : Prop where
  mem {s s' : State} : R s s' → s'.mem = s.mem
  x {s s' : State} : R s s' → s'.x = s.x
  i {s s' : State} : R s s' → s'.i = s.i
  pc {s s' : State} : R s s' → s'.pc = s.pc
  dt {s s' : State} : R s s' → s'.dt = s.dt
  stack {s s' : State} : R s s' → s'.stack = s.stack
  disp {s s' : State} : R s s' → s'.disp = s.disp
  setReg {s s' : State} (r : Reg) (v : Byte) : R s s' → R (s.setReg r v) (s'.setReg r v)
  setI {s s' : State} (v : Word) : R s s' → R (s.setI v) (s'.setI v)
  setDt {s s' : State} (v : Byte) : R s s' → R (s.setDt v) (s'.setDt v)
  setSt {s s' : State} (v : Byte) : R s s' → R (s.setSt v) (s'.setSt v)
  enterWait {s s' : State} (r : Reg) : R s s' → R (s.enterWait r) (s'.enterWait r)
  setPc {s s' : State} (v : Word) : R s s' → R (s.setPc v) (s'.setPc v)
  setStack {s s' : State} (l : List Word) : R s s' → R { s with stack := l } { s' with stack := l }
  setMem {s s' : State} (m : Memory) : R s s' → R { s with mem := m } { s' with mem := m }
  setDisp {s s' : State} (d : Display) : R s s' → R { s with disp := d } { s' with disp := d }
  recordFault {s s' : State} (c : FatalCondition) (w : Option Word) (a : Word) :
    R s s' → R (s.recordFault c w a) (s'.recordFault c w a)

namespace Simulation

variable {R : State → State → Prop} (sim : Simulation R)
include sim

section
variable {s s' : State} (h : R s s')
include h

theorem reg (r : Reg) : s'.reg r = s.reg r := by rw [State.reg, State.reg, sim.x h]

theorem byte (a : Nat) : s'.byte a = s.byte a := by rw [State.byte, State.byte, sim.mem h]

theorem pixel (c : Fin 64) (r : Fin 32) : s'.pixel c r = s.pixel c r := by
  rw [State.pixel, State.pixel, sim.disp h]

theorem base : s'.base = s.base := by rw [State.base, State.base, sim.i h]

theorem memRead (a : Nat) : s'.memRead a = s.memRead a := by rw [State.memRead, State.memRead, sim.byte h]

theorem raise (c : FatalCondition) (w : Word) : R (s.raise c w) (s'.raise c w) := by
  rw [State.raise, State.raise, State.instrAddr, State.instrAddr, sim.pc h]
  exact sim.recordFault c _ _ h

theorem skipIf (b : Bool) : R (s.skipIf b) (s'.skipIf b) := by
  cases b with
  | false => exact h
  | true =>
    show R (s.setPc (s.pc + 2)) (s'.setPc (s'.pc + 2))
    rw [sim.pc h]
    exact sim.setPc _ h

theorem setByte (a : Nat) (v : Byte) : R (s.setByte a v) (s'.setByte a v) := by
  rw [State.setByte, State.setByte, sim.mem h]
  exact sim.setMem _ h

theorem setPixel (c : Fin 64) (r : Fin 32) (v : Bool) : R (s.setPixel c r v) (s'.setPixel c r v) := by
  rw [State.setPixel, State.setPixel, sim.disp h]
  exact sim.setDisp _ h

theorem flagOp1 (a : VfAlias) (x : Reg) (flag result : Byte → Byte) :
    R (s.flagOp1 a x flag result) (s'.flagOp1 a x flag result) := by
  simp only [State.flagOp1, sim.reg h]
  exact sim.setReg _ _ (sim.setReg _ _ h)

theorem flagOp2 (a : VfAlias) (x y : Reg) (flag result : Byte → Byte → Byte) :
    R (s.flagOp2 a x y flag result) (s'.flagOp2 a x y flag result) := by
  simp only [State.flagOp2, sim.reg h]
  exact sim.setReg _ _ (sim.setReg _ _ h)

theorem storeRegs (a count : Nat) : R (s.storeRegs a count) (s'.storeRegs a count) := by
  induction count with
  | zero => exact h
  | succ count ih =>
    rw [State.storeRegs, State.storeRegs, sim.reg h]
    exact sim.setByte ih _ _

theorem loadRegs (a count : Nat) : R (s.loadRegs a count) (s'.loadRegs a count) := by
  induction count with
  | zero => exact h
  | succ count ih =>
    rw [State.loadRegs, State.loadRegs, sim.byte h]
    exact sim.setReg _ _ ih

theorem togglePixel (c : Fin 64) (r : Fin 32) : R (s.togglePixel c r) (s'.togglePixel c r) := by
  rw [State.togglePixel, State.togglePixel, sim.pixel h]
  split
  · exact sim.setReg _ _ (sim.setPixel h c r false)
  · exact sim.setPixel h c r true

end

theorem drawCols (row : Byte) (cx : Nat) (y : Fin 32) (cols : List Nat) {s s' : State} (h : R s s') :
    R (s.drawCols row cx y cols) (s'.drawCols row cx y cols) := by
  induction cols generalizing s s' with
  | nil => exact h
  | cons c cols ih =>
    rw [State.drawCols, State.drawCols]
    split
    · split
      · exact ih (sim.togglePixel h _ y)
      · exact ih h
    · exact h

theorem drawRows (w : Word) (a cx cy : Nat) (rows : List Nat) {s s' : State} (h : R s s') :
    R (s.drawRows w a cx cy rows) (s'.drawRows w a cx cy rows) := by
  induction rows generalizing s s' with
  | nil => exact h
  | cons r rows ih =>
    rw [State.drawRows, State.drawRows, sim.memRead h]
    split
    · exact sim.raise h _ w
    · split
      · exact ih (sim.drawCols _ cx _ _ h)
      · exact h

/-- An instruction that finds the inputs it reads unchanged takes related states to related states: at each branch
both read the same. -/
theorem exec_related {i : Instr} {s s' : State} (h : R s s')
    (hkey : i.mnemonic ∈ ([.skp, .sknp] : List Mnemonic) → s'.inputs.key = s.inputs.key)
    (hrand : i.mnemonic = .rnd → s'.inputs.rand8 = s.inputs.rand8) :
    ∃ t t', exec i s = .next t ∧ exec i s' = .next t' ∧ R t t' := by
  have hreg := sim.reg h
  have hbase := sim.base h
  cases i
  case ldImm x nn => exact ⟨_, _, rfl, rfl, sim.setReg x nn h⟩
  case addImm | ldReg | orReg | andReg | xorReg =>
    refine ⟨_, _, rfl, rfl, ?_⟩
    simp only [hreg]
    exact sim.setReg _ _ h
  case rnd x nn =>
    have hbyte : s'.rand8 = s.rand8 := hrand rfl
    refine ⟨_, _, rfl, rfl, ?_⟩
    simp only [rndUnder, hbyte]
    exact sim.setReg x _ h
  case ldRegDt x =>
    refine ⟨_, _, rfl, rfl, ?_⟩
    rw [sim.dt h]
    exact sim.setReg x _ h
  case addReg | subReg | subnReg => exact ⟨_, _, rfl, rfl, sim.flagOp2 h _ _ _ _ _⟩
  case shr | shl => exact ⟨_, _, rfl, rfl, sim.flagOp1 h _ _ _ _⟩
  case ldI nnn => exact ⟨_, _, rfl, rfl, sim.setI _ h⟩
  case addI | ldFont =>
    refine ⟨_, _, rfl, rfl, ?_⟩
    simp only [hreg, sim.i h]
    exact sim.setI _ h
  case ldDtReg x =>
    refine ⟨_, _, rfl, rfl, ?_⟩
    rw [hreg]
    exact sim.setDt _ h
  case ldStReg x =>
    refine ⟨_, _, rfl, rfl, ?_⟩
    rw [hreg]
    exact sim.setSt _ h
  case ldKey x => exact ⟨_, _, rfl, rfl, sim.enterWait x h⟩
  case jp nnn => exact ⟨_, _, rfl, rfl, sim.setPc _ h⟩
  case jpV0 nnn =>
    refine ⟨_, _, rfl, rfl, ?_⟩
    rw [hreg]
    exact sim.setPc _ h
  case call nnn =>
    refine ⟨_, _, rfl, rfl, sim.setPc _ ?_⟩
    rw [sim.pc h, State.push, State.push, sim.stack h]
    exact sim.setStack _ h
  case seImm | sneImm | seReg | sneReg =>
    refine ⟨_, _, rfl, rfl, ?_⟩
    simp only [hreg]
    exact sim.skipIf h _
  case cls ign => exact ⟨_, _, rfl, rfl, sim.setDisp _ h⟩
  case drw x y n =>
    refine ⟨_, _, rfl, rfl, ?_⟩
    simp only [hreg, hbase]
    exact sim.drawRows _ _ _ _ _ (sim.setReg VF 0 h)
  case ret ign =>
    simp only [exec, execRet, State.pop, sim.stack h]
    cases s.stack.getLast? with
    | none => exact ⟨_, _, rfl, rfl, sim.raise h _ _⟩
    | some a => exact ⟨_, _, rfl, rfl, sim.setPc a (sim.setStack _ h)⟩
  case skp x =>
    simp only [exec, execSkp, State.key, hreg, hkey (by simp [Instr.mnemonic])]
    cases keyIndex (s.reg x) with
    | none => exact ⟨_, _, rfl, rfl, sim.raise h _ _⟩
    | some k => exact ⟨_, _, rfl, rfl, sim.skipIf h _⟩
  case sknp x =>
    simp only [exec, execSknp, State.key, hreg, hkey (by simp [Instr.mnemonic])]
    cases keyIndex (s.reg x) with
    | none => exact ⟨_, _, rfl, rfl, sim.raise h _ _⟩
    | some k => exact ⟨_, _, rfl, rfl, sim.skipIf h _⟩
  case ldBcd x =>
    simp only [exec, execLdBcd, hreg, hbase]
    cases rangeFault s.base (s.base + 2) with
    | some c => exact ⟨_, _, rfl, rfl, sim.raise h c _⟩
    | none => exact ⟨_, _, rfl, rfl, sim.setByte (sim.setByte (sim.setByte h _ _) _ _) _ _⟩
  case stRegs x =>
    simp only [exec, execStRegs, hbase]
    cases rangeFault s.base (s.base + x) with
    | some c => exact ⟨_, _, rfl, rfl, sim.raise h c _⟩
    | none => exact ⟨_, _, rfl, rfl, sim.storeRegs h _ _⟩
  case ldRegs x =>
    simp only [exec, execLdRegs, hbase]
    cases rangeFault s.base (s.base + x) with
    | some c => exact ⟨_, _, rfl, rfl, sim.raise h c _⟩
    | none => exact ⟨_, _, rfl, rfl, sim.loadRegs h _ _⟩

end Simulation

/-! ### The status state: ST, the latch and the fault record -/

/-- The state with other contents in ST, the latch and the fault record. -/
def State.withStatus (s : State) (v : Byte) (l : Latch) (f : Option FaultRecord) : State :=
  { s with st := v, latch := l, fault := f }

/-- The states differ at most in ST, the latch and the fault record. -/
def SameButStatus (s s' : State) : Prop := ∃ v l f, s' = s.withStatus v l f

theorem sameBut_withStatus (s : State) (v : Byte) (l : Latch) (f : Option FaultRecord) :
    SameBut [.st, .latch, .fault] s (s.withStatus v l f) := by
  intro p hp
  cases p
  case st | latch | fault => exact absurd (by simp) hp
  all_goals rfl

theorem simulation_sameButStatus : Simulation SameButStatus where
  mem := by rintro s _ ⟨v, l, f, rfl⟩; rfl
  x := by rintro s _ ⟨v, l, f, rfl⟩; rfl
  i := by rintro s _ ⟨v, l, f, rfl⟩; rfl
  pc := by rintro s _ ⟨v, l, f, rfl⟩; rfl
  dt := by rintro s _ ⟨v, l, f, rfl⟩; rfl
  stack := by rintro s _ ⟨v, l, f, rfl⟩; rfl
  disp := by rintro s _ ⟨v, l, f, rfl⟩; rfl
  setReg r u := by rintro ⟨v, l, f, rfl⟩; exact ⟨v, l, f, rfl⟩
  setI u := by rintro ⟨v, l, f, rfl⟩; exact ⟨v, l, f, rfl⟩
  setDt u := by rintro ⟨v, l, f, rfl⟩; exact ⟨v, l, f, rfl⟩
  setSt u := by rintro ⟨v, l, f, rfl⟩; exact ⟨u, l, f, rfl⟩
  enterWait r := by rintro ⟨v, l, f, rfl⟩; exact ⟨v, ⟨true, r⟩, f, rfl⟩
  setPc u := by rintro ⟨v, l, f, rfl⟩; exact ⟨v, l, f, rfl⟩
  setStack u := by rintro ⟨v, l, f, rfl⟩; exact ⟨v, l, f, rfl⟩
  setMem m := by rintro ⟨v, l, f, rfl⟩; exact ⟨v, l, f, rfl⟩
  setDisp d := by rintro ⟨v, l, f, rfl⟩; exact ⟨v, l, f, rfl⟩
  recordFault c w a := by rintro ⟨v, l, f, rfl⟩; exact ⟨v, l, some ⟨c, w, a⟩, rfl⟩

/-- Settles O59: states that differ in the status state only stay so. -/
theorem statusStateIsNeverRead : Obligations.StatusStateIsNeverRead := by
  intro i s t v l f h
  have hstart : SameButStatus s (s.withStatus v l f) := ⟨v, l, f, rfl⟩
  obtain ⟨t', u, ht', hu, v', l', f', rfl⟩ :=
    simulation_sameButStatus.exec_related (i := i) hstart (fun _ => rfl) (fun _ => rfl)
  cases h.symm.trans ht'
  exact ⟨_, hu, sameBut_withStatus t v' l' f'⟩

/-! ### The inputs of the step -/

theorem simulation_withInputs (key : KeySnapshot) (rand8 : Byte) :
    Simulation fun s s' => s' = s.withInputs key rand8 where
  mem := by rintro s _ rfl; rfl
  x := by rintro s _ rfl; rfl
  i := by rintro s _ rfl; rfl
  pc := by rintro s _ rfl; rfl
  dt := by rintro s _ rfl; rfl
  stack := by rintro s _ rfl; rfl
  disp := by rintro s _ rfl; rfl
  setReg r u := by rintro rfl; rfl
  setI u := by rintro rfl; rfl
  setDt u := by rintro rfl; rfl
  setSt u := by rintro rfl; rfl
  enterWait r := by rintro rfl; rfl
  setPc u := by rintro rfl; rfl
  setStack u := by rintro rfl; rfl
  setMem m := by rintro rfl; rfl
  setDisp d := by rintro rfl; rfl
  recordFault c w a := by rintro rfl; rfl

/-- Settles O60: states that differ in the inputs only stay so. -/
theorem inputsAreReadOnlyByTheirInstructions : Obligations.InputsAreReadOnlyByTheirInstructions := by
  intro i s t key rand8 h hkey hrand
  obtain ⟨t', u, ht', hu, rfl⟩ :=
    (simulation_withInputs key rand8).exec_related (i := i) (s := s) rfl hkey hrand
  cases h.symm.trans ht'
  exact hu

end Sys2Proof.Machine
end
